-- ==== Sys2Proof/Parameters.lean ====
section
/-!
DEFINITION. The six parameters of rule R5, each a named constant with the default the rule gives. The four that
stand in a type or in an index computation are abbreviations, so that a width or a factor is seen as its value.
-/

namespace Sys2Proof.Config

/-- `XLEN` = 32, the width in bits of every register and of the data of a register-port access (rule R5). -/
@[simp] abbrev xlen : Nat := 32

/-- `MAX_ELEMS` = 2^29 - 1, the largest legal element count (rule R5). -/
def maxElems : Nat := 536870911

/-- `MAX_PLEN` = 2^29 - 1, the largest legal payload length in bytes (rule R5). -/
def maxPlen : Nat := 536870911

/-- `SEED_W` = 32, the width of the permutation seed (rule R5). -/
@[simp] abbrev seedW : Nat := 32

/-- `SAMPLE_W` = 8, the width of a sample (rules R4, R5). -/
@[simp] abbrev sampleW : Nat := 8

/-- `CHANNELS` = 3, the channels of a pixel (rules R4, R5). -/
@[simp] abbrev channels : Nat := 3

end Sys2Proof.Config
end

