-- ==== Sys2Proof/Word.lean ====
section
/-!
DEFINITION. The word types of the block, at the widths rule R5 names: a register or site-table item has `XLEN` bits
(rules R33, R28), a sample, payload byte, symbol or command word 8 bits (rules R4, R27, R61), a seed `SEED_W` bits.
-/

namespace Sys2Proof

/-- A register value: `XLEN` bits, unsigned (rules R5 and R33). -/
abbrev Word := BitVec Config.xlen

/-- A sample: `SAMPLE_W` bits, unsigned (rules R4, R5). A payload byte, a symbol item and a command word have the same
eight bits (rules R27, R44, R61). -/
abbrev Byte := BitVec Config.sampleW

/-- The seed of the permuted selector: `SEED_W` bits (rules R5, R6, R17). It is the whole of register `SEED`, whose
width `XLEN` is the same. -/
abbrev Seed := BitVec Config.seedW

end Sys2Proof
end

