-- ==== Sys2Proof/Config.lean ====
section
/-!
DEFINITION. What is fixed for one block but is no state and no number: the two open model parameters of rule R6
(`PERM` and `EDGE_DETECT`), and the free value that stands for an unspecified buffer item (U4). The numbers are those
of `Parameters.lean`.

The two parameters are held in a record `Collab`, so that a meaning can be written once over any pair of
collaborators and a claim can be stated for every pair that meets its law. The pair the machine itself uses is
built from constants WITHOUT A BODY, so no proof can see which permutation or which mask comes out.
-/

namespace Sys2Proof

/-- The two collaborators a command may evaluate (rule R6): `PERM(seed, M)` and
`EDGE_DETECT(img, H, W, low, high)`. They are functions, not agents and not state (rule R9). -/
structure Collab where
  /-- `PERM`: seed and element count to the permuted index sequence. -/
  perm : Seed → Nat → List Nat
  /-- `EDGE_DETECT`: samples, height, width, low and high threshold to the mask bits, pixel 0 first. -/
  edgeDetect : List Byte → Nat → Nat → Word → Word → List Bool

/-- The whole of what a rule may assume of the collaborators: `PERM` yields each of `0 .. M-1` exactly once for
every legal `M` (rule R106) and `EDGE_DETECT` yields exactly `H × W` bits (rule R109). That each depends on its
arguments alone is said by its being a function. -/
def Collab.Lawful (C : Collab) : Prop :=
  (∀ (seed : Seed) (m : Nat), m ≤ Config.maxElems → (C.perm seed m).Perm (List.range m)) ∧
  (∀ (img : List Byte) (h w : Nat) (low high : Word), (C.edgeDetect img h w low high).length = h * w)

namespace Config

/-- FREE VALUE. The sequence the unspecified generator proposes for a seed and an element count (N2). DESIGN CHOICE
(log entry 5): an opaque constant. -/
opaque permRaw : Seed → Nat → List Nat

/-- FREE VALUE. The mask bit of one pixel, the last argument, as the unspecified detector gives it (N3).
DESIGN CHOICE (log entry 5): an opaque constant. -/
opaque edgeRaw : List Byte → Nat → Nat → Word → Word → Nat → Bool

/-- FREE VALUE. What a buffer-port read at or past the buffer's length returns (U4); the argument is the number of
such reads so far, so that no two of them are tied together. DESIGN CHOICE (log entry 3). -/
opaque freeItem : Nat → Word

/-- `PERM` of the machine: the free sequence kept to the one law of rule R106. Every lawful `PERM` is reached (by
proposing it), and nothing else can come out. -/
def perm (seed : Seed) (m : Nat) : List Nat :=
  if (permRaw seed m).isPerm (List.range m) then permRaw seed m else List.range m

/-- `EDGE_DETECT` of the machine: one free bit for each of the `H × W` pixels (rule R109). -/
def edgeDetect (img : List Byte) (h w : Nat) (low high : Word) : List Bool :=
  (List.range (h * w)).map (edgeRaw img h w low high)

/-- The collaborators the machine's own `ORDER`, `EMBED` and `EXTRACT` evaluate. -/
def collab : Collab := { perm := perm, edgeDetect := edgeDetect }

end Config

end Sys2Proof
end

