-- ==== Sys2Proof/Syntax.lean ====
section
/-!
DEFINITION. The instruction set: the eight commands of rule R62, one constructor for each row of
`spec/opcode_table.json`. A command carries no operand (rules R61, R67): all it works on is named by its rule.
-/

namespace Sys2Proof

/-- The eight commands of the block (rule R62). -/
inductive Instr where
  /-- `PACK`, opcode 0x01, rule R85. -/
  | pack
  /-- `CHUNK`, opcode 0x02, rule R86. -/
  | chunk
  /-- `UNCHUNK`, opcode 0x03, rule R87. -/
  | unchunk
  /-- `UNPACK`, opcode 0x04, rule R88. -/
  | unpack
  /-- `ORDER`, opcode 0x08, rule R102; the selector variant is taken from register `KIND`. -/
  | order
  /-- `VALIDATE`, opcode 0x09, rule R122. -/
  | validate
  /-- `EMBED`, opcode 0x10, rule R131. -/
  | embed
  /-- `EXTRACT`, opcode 0x11, rule R136. -/
  | extract
  deriving DecidableEq, Repr

/-- All eight commands, in the table's order. -/
def Instr.all : List Instr :=
  [.pack, .chunk, .unchunk, .unpack, .order, .validate, .embed, .extract]

/-- The mnemonic of a command as rule R62 spells it. -/
def Instr.mnemonic : Instr → String
  | .pack => "PACK"
  | .chunk => "CHUNK"
  | .unchunk => "UNCHUNK"
  | .unpack => "UNPACK"
  | .order => "ORDER"
  | .validate => "VALIDATE"
  | .embed => "EMBED"
  | .extract => "EXTRACT"

end Sys2Proof
end

