-- ==== Sys2Proof/Decode.lean ====
section
/-!
DEFINITION. From command words to commands and back. One format `C`, one length of 8 bits, the opcode and nothing
else (rules R61, R69). The decoder reads the opcode map of rule R62 as a table of mask and pattern; it is total and
refuses every reserved word by name (rules R66, R68). The encoder is written from the same rule.
-/

namespace Sys2Proof

/-- Why bytes are no command. -/
inductive DecodeError where
  /-- There is no command word to read. -/
  | noWord
  /-- The word is one of the 248 reserved ones (rule R66). -/
  | reserved (w : Byte)
  deriving DecidableEq, Repr

/-- One row of the opcode map: the word matches when `word & mask = pattern`. -/
structure OpcodeRow where
  mask : Byte
  pattern : Byte
  instr : Instr
  deriving DecidableEq, Repr

/-- The opcode map of rule R62. All eight bits of a command word are opcode, so each mask is full. -/
def opcodeMap : List OpcodeRow :=
  [ { mask := 0xFF#8, pattern := 0x01#8, instr := .pack },
    { mask := 0xFF#8, pattern := 0x02#8, instr := .chunk },
    { mask := 0xFF#8, pattern := 0x03#8, instr := .unchunk },
    { mask := 0xFF#8, pattern := 0x04#8, instr := .unpack },
    { mask := 0xFF#8, pattern := 0x08#8, instr := .order },
    { mask := 0xFF#8, pattern := 0x09#8, instr := .validate },
    { mask := 0xFF#8, pattern := 0x10#8, instr := .embed },
    { mask := 0xFF#8, pattern := 0x11#8, instr := .extract } ]

/-- Decode one command word (rule R63 step 1). -/
def decodeWord (w : Byte) : Except DecodeError Instr :=
  match opcodeMap.find? (fun r => w &&& r.mask == r.pattern) with
  | some r => .ok r.instr
  | none => .error (.reserved w)

/-- Decode the first command of a byte sequence; the rest follows it. A decoder reads 8 bits and has the whole
command (rule R69). -/
def decode : List Byte → Except DecodeError (Instr × List Byte)
  | [] => .error .noWord
  | w :: rest =>
    match decodeWord w with
    | .ok i => .ok (i, rest)
    | .error e => .error e

/-- The command word of a command (rule R62). -/
def encode : Instr → Byte
  | .pack => 0x01#8
  | .chunk => 0x02#8
  | .unchunk => 0x03#8
  | .unpack => 0x04#8
  | .order => 0x08#8
  | .validate => 0x09#8
  | .embed => 0x10#8
  | .extract => 0x11#8

/-- The one command word that an instruction of `nbits` bits with value `w` is, every bit at `nbits` and above being
zero; the first (and only) word is the least significant byte. -/
def tableByte (nbits w : Nat) : Byte := BitVec.ofNat 8 (w % 2 ^ nbits)

/-- What the decoder reads from an instruction numbered as `spec/opcode_table.json` numbers its bits. -/
def decodeTableWord (nbits w : Nat) : Option Instr :=
  match decode [tableByte nbits w] with
  | .ok (i, _) => some i
  | .error _ => none

end Sys2Proof
end

