-- ==== Sys2Proof/Machine/Transaction.lean ====
section
/-!
DEFINITION. What the host can do to the block: the transactions of its three ports (rule R60), its own byte accesses
to the two memories (rules R30, R31), and the reset input (rule R181); and what a transaction returns to it.
A list of these is the block's input: see `State.inbox`.
-/

namespace Sys2Proof.Machine

/-- One transaction of the host, atomic (rules R8, R60). -/
inductive Txn where
  /-- `CMD w` on the command port: an 8-bit command word (rules R61, R63). -/
  | cmd (w : Byte)
  /-- `WR r, v` on the register port: a 5-bit register number and a 32-bit value (rules R64, R65). -/
  | wr (r : BitVec 5) (v : Word)
  /-- `RD r` on the register port (rule R65). -/
  | rd (r : BitVec 5)
  /-- `RDB buf, i` on the buffer port: a 2-bit buffer select and a 32-bit position (rule R70). -/
  | rdb (buf : BitVec 2) (i : Word)
  /-- The host's write `PAY[a] = v` to its payload memory (rules R30, R60). -/
  | writePay (a : Nat) (v : Byte)
  /-- The host's read of `PAY[a]` (rule R30). -/
  | readPay (a : Nat)
  /-- The host's write `IMG[a] = v` to its image memory (rules R31, R60). -/
  | writeImg (a : Nat) (v : Byte)
  /-- The host's read of `IMG[a]` (rule R31). -/
  | readImg (a : Nat)
  /-- The reset input, asserted between commands (rule R181). -/
  | reset
  deriving DecidableEq, Repr

/-- The six results of a command (rule R161). -/
inductive ResultCode where
  /-- Code 0: the command ran to its end. -/
  | ok
  /-- Code 1: `BLEN > SLEN × n_eff` (rule R164). -/
  | insufficientCapacity
  /-- Code 2: fewer sites than symbols to read (rule R165). -/
  | insufficientSites
  /-- Code 3: a bitstream that is no whole number of bytes (rule R166). -/
  | malformedBitstream
  /-- Code 4: an operand outside the command's domain (rule R167). -/
  | badOperand
  /-- Code 5: a reserved command word (rule R168). -/
  | illegalCommand
  deriving DecidableEq, Repr

/-- What a transaction returns to the host. A write and a reset return nothing. -/
inductive Reply where
  /-- The completion of a command carries its result code (rules R60, R63). -/
  | result (c : ResultCode)
  /-- `RD` and `RDB` return a 32-bit value (rules R65, R70). -/
  | value (v : Word)
  /-- A host read of its own memory returns a byte. -/
  | byte (b : Byte)
  deriving DecidableEq, Repr

end Sys2Proof.Machine
end

