-- ==== Sys2Proof/Machine/State.lean ====
section
/-!
DEFINITION. The state of the block, whole (rule R10): nine operand registers, the status registers, the three
sequence buffers, the two byte memories; and three fields of the model's own, which stand for the outside world:
the transactions the host has issued and the block has not yet served, what the last one returned, and the counter
that makes free values fresh. Also the reasons a step can stop.
-/

namespace Sys2Proof.Machine

/-- A byte memory: (address, byte) pairs in the canonical form of `Memory.wf`. -/
abbrev Memory := List Host.Cell

/-- What an address that is not listed reads as. DESIGN CHOICE (log entry 1): the spec leaves the content of a byte
that nobody has written since power-up unspecified (U3, rules R30, R31, R182). -/
def Memory.unwritten : Byte := 0x00#8

/-- The canonical form: addresses strictly rising, and no entry that says what an unlisted address says, so that
equal memories are equal lists. -/
abbrev Memory.wf (m : Memory) : Prop :=
  m.Pairwise (fun x y => x.1 < y.1) ∧ ∀ c ∈ m, c.2 ≠ Memory.unwritten

/-- Every listed address exists in a space of `size` bytes. -/
abbrev Memory.within (m : Memory) (size : Nat) : Prop := ∀ c ∈ m, c.1 < size

structure State where
  /-- `KIND`, register 0 (rule R11). -/
  kind : Word
  /-- `NBITS`, register 1 (rule R12). -/
  nbits : Word
  /-- `HEIGHT`, register 2 (rule R13). -/
  height : Word
  /-- `WIDTH`, register 3 (rule R14). -/
  width : Word
  /-- `TOTAL_BITS`, register 4 (rule R15). -/
  totalBits : Word
  /-- `PLEN`, register 5 (rule R16). -/
  plen : Word
  /-- `SEED`, register 6 (rule R17). -/
  seed : Word
  /-- `LOW_THR`, register 7 (rule R18). -/
  lowThr : Word
  /-- `HIGH_THR`, register 8 (rule R19). -/
  highThr : Word
  /-- `STATUS`, register 16: `ERR` in bits 2:0, `LASTOP` in bits 15:8, the rest reserved (rule R21). -/
  status : Word
  /-- `CAP`, register 20 (rule R29). -/
  cap : Word
  /-- `BS`, the bitstream buffer, item 0 first (rule R26). Its length is register 17, `BLEN` (rule R22). -/
  bs : List Bool
  /-- `SYM`, the symbol buffer of 8-bit items (rule R27). Its length is register 18, `SYMCNT` (rule R23). -/
  sym : List Byte
  /-- `ST`, the site table of 32-bit element indices (rule R28). Its length is register 19, `SLEN` (rule R24). -/
  st : List Word
  /-- `PAY`, the payload memory (rule R30). -/
  pay : Memory
  /-- `IMG`, the image memory (rule R31). -/
  img : Memory
  /-- The model's own: the host's transactions that the block has not served yet, oldest first (rules R8, R52).
  DESIGN CHOICE (log entry 2). -/
  inbox : List Txn
  /-- The model's own: what the last transaction returned to the host (rules R60, R63, R65, R70). -/
  reply : Option Reply
  /-- The model's own: how many free values have been drawn (U4). -/
  freeCount : Nat
  deriving DecidableEq, Repr

/-- `BLEN`, register 17: always `len(BS)` (rule R22); a view of `bs`, so that no write of `BS` can miss it.
DEDUCED (log entry 6), and so are the next two. -/
def State.blen (s : State) : Word := BitVec.ofNat Config.xlen s.bs.length

/-- `SYMCNT`, register 18: always `len(SYM)` (rule R23). -/
def State.symcnt (s : State) : Word := BitVec.ofNat Config.xlen s.sym.length

/-- `SLEN`, register 19: always `len(ST)` (rule R24). -/
def State.slen (s : State) : Word := BitVec.ofNat Config.xlen s.st.length

/-- Why the machine stops. No command does (rules R56, R192): only an access of the HOST to an address that its
memory does not have, about which the spec says nothing (DESIGN CHOICE, log entry 4). -/
inductive Fault where
  /-- Raised by `Txn.writePay` and `Txn.readPay` at an address of `MAX_PLEN` or more, which `PAY` does not have
  (rule R30). SAFE: the model stops where the hardware has no such address. -/
  | payAddress (a : Nat)
  /-- Raised by `Txn.writeImg` and `Txn.readImg` at an address of `MAX_ELEMS` or more, which `IMG` does not have
  (rule R31). SAFE: the model stops where the hardware has no such address. -/
  | imgAddress (a : Nat)
  deriving DecidableEq, Repr

/-- Why an instruction has no meaning. -/
inductive Refusal where
  /-- Raised by an arm of `exec` for a command that is not modelled; no arm does. SAFE: nothing can be proved of a
  run that stops here. -/
  | notModelled (mnemonic : String)
  deriving DecidableEq, Repr

/-- The outcome of a step of this machine. -/
abbrev Result := Host.Outcome State Fault Refusal

/-- The state right after reset (rules R34, R180): `NBITS` = 1, every other register 0, the buffers empty. The
memories list nothing (log entry 1), no transaction waits and none has returned anything (log entry 2), no free
value has been drawn (log entry 3). -/
def State.reset : State :=
  { kind := 0#32, nbits := 1#32, height := 0#32, width := 0#32, totalBits := 0#32, plen := 0#32,
    seed := 0#32, lowThr := 0#32, highThr := 0#32, status := 0#32, cap := 0#32,
    bs := [], sym := [], st := [], pay := [], img := [],
    inbox := [], reply := none, freeCount := 0 }

end Sys2Proof.Machine
end

