-- ==== Sys2Proof/Machine/Operands.lean ====
section
/-!
DEFINITION. Operands. The register numbers of the register port (rule R64), the selector kinds (rule R73), the checks
that guard a command's operands (rule R167) and what is derived from operands at the start of a command: `M` (rule R7)
and `n_eff` (rule R120). Legality is checked when a command uses a register, never when it is written (rule R33).
-/

namespace Sys2Proof.Machine

/-- The registers that have a name (rule R64). -/
inductive Reg where
  | kind | nbits | height | width | totalBits | plen | seed | lowThr | highThr
  | status | blen | symcnt | slen | cap
  deriving DecidableEq, Repr

/-- The number of a register (rule R64). -/
def Reg.number : Reg → BitVec 5
  | .kind => 0#5
  | .nbits => 1#5
  | .height => 2#5
  | .width => 3#5
  | .totalBits => 4#5
  | .plen => 5#5
  | .seed => 6#5
  | .lowThr => 7#5
  | .highThr => 8#5
  | .status => 16#5
  | .blen => 17#5
  | .symcnt => 18#5
  | .slen => 19#5
  | .cap => 20#5

/-- Every named register, in the order of the table of rule R64. -/
def Reg.all : List Reg :=
  [.kind, .nbits, .height, .width, .totalBits, .plen, .seed, .lowThr, .highThr,
   .status, .blen, .symcnt, .slen, .cap]

/-- The register of a number; 9 to 15 and 21 to 31 are reserved (rule R33). -/
def regOfNumber (r : BitVec 5) : Option Reg := Reg.all.find? (fun n => n.number == r)

/-- The value of a named register. The three length registers are views of the buffers (rules R22, R23, R24). -/
def State.readReg (s : State) : Reg → Word
  | .kind => s.kind
  | .nbits => s.nbits
  | .height => s.height
  | .width => s.width
  | .totalBits => s.totalBits
  | .plen => s.plen
  | .seed => s.seed
  | .lowThr => s.lowThr
  | .highThr => s.highThr
  | .status => s.status
  | .blen => s.blen
  | .symcnt => s.symcnt
  | .slen => s.slen
  | .cap => s.cap

/-- A host write to a named register: an operand register takes the value unchecked, a status register ignores it
(rules R33, R65). -/
def State.writeReg (s : State) (r : Reg) (v : Word) : State :=
  match r with
  | .kind => { s with kind := v }
  | .nbits => { s with nbits := v }
  | .height => { s with height := v }
  | .width => { s with width := v }
  | .totalBits => { s with totalBits := v }
  | .plen => { s with plen := v }
  | .seed => { s with seed := v }
  | .lowThr => { s with lowThr := v }
  | .highThr => { s with highThr := v }
  | .status | .blen | .symcnt | .slen | .cap => s

/-- The three selector variants (rules R11, R73). -/
inductive Kind where
  /-- `SEQ`, "SequentialSelector". -/
  | seq
  /-- `EDGE`, "EdgeSelector". -/
  | edge
  /-- `PERM`, "PermutedSelector". -/
  | perm
  deriving DecidableEq, Repr

/-- The variant a value of `KIND` selects; 3 and above are illegal (rule R73). -/
def kindOf (v : Word) : Option Kind :=
  if v = 0#32 then some .seq
  else if v = 1#32 then some .edge
  else if v = 2#32 then some .perm
  else none

/-- `NBITS` is a bit-width: 1 to 8 (rule R12). -/
def widthLegal (v : Word) : Bool := decide (1 ≤ v.toNat ∧ v.toNat ≤ 8)

/-- `M = HEIGHT × WIDTH × 3`, exact (rule R7), the 3 being `CHANNELS` (rule R5). -/
def State.elemCount (s : State) : Nat := s.height.toNat * s.width.toNat * Config.channels

/-- The image fits: `M ≤ MAX_ELEMS` (rules R13, R41). -/
def State.imageLegal (s : State) : Bool := decide (s.elemCount ≤ Config.maxElems)

/-- The payload fits: `PLEN ≤ MAX_PLEN` (rule R16). -/
def State.payloadLegal (s : State) : Bool := decide (s.plen.toNat ≤ Config.maxPlen)

/-- The selector variant and the effective bit-width `n_eff` (rule R120), or nothing where that is `BadOperand`:
`KIND` above 2, or `KIND` = 2 with an illegal `NBITS`. `NBITS` is not read for the other two variants. -/
def State.selector (s : State) : Option (Kind × Nat) :=
  match kindOf s.kind with
  | none => none
  | some .seq => some (.seq, 1)
  | some .edge => some (.edge, 1)
  | some .perm => if widthLegal s.nbits then some (.perm, s.nbits.toNat) else none

/-- Item `k` of a sequence of bits, 0 past its end (the padding of rule R81). -/
def bitAt (bits : List Bool) (k : Nat) : Bool := bits.getD k false

/-- The number that a string of bits spells, first bit most significant (rule R46). -/
def bitsToNat (bits : List Bool) : Nat := bits.foldl (fun acc b => 2 * acc + b.toNat) 0

end Sys2Proof.Machine
end

