-- ==== Sys2Proof/Machine/Flags.lean ====
section
/-!
DEFINITION. The one flag register of the block, `STATUS` (rule R21): the encoding of a result code in `ERR`
(rules R73, R161), the word a completing command writes, and the accessors of the two fields.
-/

namespace Sys2Proof.Machine

/-- The 3-bit code of a result (rule R161). Codes 6 and 7 are not used. -/
def ResultCode.code : ResultCode → BitVec 3
  | .ok => 0#3
  | .insufficientCapacity => 1#3
  | .insufficientSites => 2#3
  | .malformedBitstream => 3#3
  | .badOperand => 4#3
  | .illegalCommand => 5#3

/-- The value of `STATUS` after the command word `w` completed with result `c`: bits 31:16 reserved and 0, bits 15:8
`LASTOP`, bits 7:3 reserved and 0, bits 2:0 `ERR` (rules R21, R63). -/
def statusWord (c : ResultCode) (w : Byte) : Word := 0#16 ++ w ++ 0#5 ++ c.code

/-- `STATUS.ERR`, bits 2:0 (rule R21). -/
def State.err (s : State) : BitVec 3 := s.status.extractLsb' 0 3

/-- `STATUS.LASTOP`, bits 15:8 (rule R21). -/
def State.lastop (s : State) : Byte := s.status.extractLsb' 8 8

end Sys2Proof.Machine
end

