-- ==== Sys2Proof/Machine/Ops.lean ====
section
/-!
DEFINITION. The operations every command is made of: reading and writing one byte of a memory (rule R44), writing a
sequence buffer as a whole (rule R25), writing a register, and the two ways a command ends, `complete Ok` and
`raise E` (rules R63, R163). An error is this block's only exception: it saves the result code and the command word in
`STATUS` and nothing else, switches no mode and transfers control nowhere (rules R162, R172), and there is nothing to
return from (rule R173).
-/

namespace Sys2Proof.Machine

/-- `MemRead(SPACE, a, 1)` (rule R44). -/
def Memory.read : Memory → Nat → Byte
  | [], _ => Memory.unwritten
  | (b, v) :: rest, a => if b = a then v else Memory.read rest a

/-- Put an entry before the first entry of a higher address. -/
def Memory.insert (a : Nat) (v : Byte) : Memory → Memory
  | [] => [(a, v)]
  | (b, w) :: rest => if a < b then (a, v) :: (b, w) :: rest else (b, w) :: Memory.insert a v rest

/-- `MemWrite(SPACE, a, 1, v)` (rule R44). Writing what an unlisted address reads as removes the entry. -/
def Memory.write (m : Memory) (a : Nat) (v : Byte) : Memory :=
  let others := m.filter (fun c => c.1 != a)
  if v = Memory.unwritten then others else Memory.insert a v others

/-- The bytes at addresses `0 .. n-1`, read in increasing order (rules R43, R49). -/
def Memory.readRange (m : Memory) (n : Nat) : List Byte := (List.range n).map m.read

/-- Write bytes at `a`, `a + 1`, … in increasing order (rules R49, R88). -/
def Memory.writeFrom (m : Memory) (a : Nat) : List Byte → Memory
  | [] => m
  | v :: rest => Memory.writeFrom (m.write a v) (a + 1) rest

/-- `BS <- b` (rule R25); `BLEN` follows. -/
def State.setBs (s : State) (b : List Bool) : State := { s with bs := b }

/-- `SYM <- y` (rule R25); `SYMCNT` follows. -/
def State.setSym (s : State) (y : List Byte) : State := { s with sym := y }

/-- `ST <- t` (rule R25); `SLEN` follows. An item is a 32-bit element index (rule R28). -/
def State.setSt (s : State) (t : List Nat) : State := { s with st := t.map (BitVec.ofNat Config.xlen) }

/-- `CAP <- c`; no legal capacity exceeds 2^32 - 8 (rules R29, R123). -/
def State.setCap (s : State) (c : Nat) : State := { s with cap := BitVec.ofNat Config.xlen c }

/-- `TOTAL_BITS <- t`, with `t` below 2^32 (rules R15, R84). -/
def State.setTotalBits (s : State) (t : Nat) : State := { s with totalBits := BitVec.ofNat Config.xlen t }

/-- `PLEN <- l`, with `l` at most `MAX_PLEN` (rules R16, R84). -/
def State.setPlen (s : State) (l : Nat) : State := { s with plen := BitVec.ofNat Config.xlen l }

/-- Replace the payload memory by what a command's byte writes made of it. -/
def State.setPay (s : State) (m : Memory) : State := { s with pay := m }

/-- Replace the image memory by what a command's byte writes made of it. -/
def State.setImg (s : State) (m : Memory) : State := { s with img := m }

/-- The last two steps of every command word (rule R63): `STATUS` records result and word, and the transaction
returns the result. -/
def State.record (s : State) (w : Byte) (c : ResultCode) : State :=
  { s with status := statusWord c w, reply := some (.result c) }

/-- A command word completes with a result: the next state, never a stop (rules R63, R192). -/
def conclude (w : Byte) (c : ResultCode) (s : State) : Result := .next (s.record w c)

/-- `raise E` in command `i` (rule R163): the command ends here, what it wrote before stays written. -/
def raise (i : Instr) (e : ResultCode) (s : State) : Result := conclude (encode i) e s

/-- `complete Ok` in command `i` (rule R63). -/
def completeOk (i : Instr) (s : State) : Result := conclude (encode i) .ok s

/-- `ceil(a / b)` for `b ≥ 1` (rule R7). -/
def ceilDiv (a b : Nat) : Nat := (a + b - 1) / b

/-- `lowmask(n) = 2^n - 1` on 8 bits (rule R7). -/
def lowmask (n : Nat) : Byte := BitVec.ofNat Config.sampleW (2 ^ n - 1)

/-- The sample update of rule R132: clear the low `n` bits of the sample and OR in the symbol. -/
def sampleUpdate (n : Nat) (v y : Byte) : Byte := (v &&& ~~~(lowmask n)) ||| y

/-- The sample read of rule R137: the low `n` bits of the sample. -/
def sampleRead (n : Nat) (v : Byte) : Byte := v &&& lowmask n

end Sys2Proof.Machine
end

