-- ==== Sys2Proof/Machine/BitPacker.lean ====
section
/-!
DEFINITION. The bit packer: the four pure functions `pack`, `chunk`, `unchunk`, `unpack` (rules R80 to R83) and the
four commands that apply them to the block's buffers (rules R85 to R88). All arithmetic is exact (rule R84).
-/

namespace Sys2Proof.Machine

/-- `pack(B)`: item `8 i + j` is bit `7 - j` of byte `i` (rule R80). -/
def packBits (bytes : List Byte) : List Bool :=
  (List.range (8 * bytes.length)).map fun t => (bytes.getD (t / 8) 0#8).getLsbD (7 - t % 8)

/-- The value of group `k` of `n` bits, the first bit most significant, zeros past the end (rules R81, R83). -/
def groupValue (bits : List Bool) (n k : Nat) : Byte :=
  BitVec.ofNat 8 (bitsToNat ((List.range n).map fun j => bitAt bits (k * n + j)))

/-- `chunk(S, n)`: `ceil(len(S) / n)` symbols of `n` bits (rule R81). -/
def chunkBits (bits : List Bool) (n : Nat) : List Byte :=
  (List.range (ceilDiv bits.length n)).map (groupValue bits n)

/-- `unchunk(Y, n, t)`: exactly `t` bits, item `i` being bit `n - 1 - i mod n` of symbol `i div n` (rule R82). -/
def unchunkBits (symbols : List Byte) (n t : Nat) : List Bool :=
  (List.range t).map fun i => (symbols.getD (i / n) 0#8).getLsbD (n - 1 - i % n)

/-- `unpack(S)`: `len(S) div 8` bytes, first bit most significant (rule R83). -/
def unpackBits (bits : List Bool) : List Byte :=
  (List.range (bits.length / 8)).map (groupValue bits 8)

/-- The payload `PAY[0 .. PLEN)`, read in increasing address order (rule R43). -/
def State.payload (s : State) : List Byte := s.pay.readRange s.plen.toNat

/-- `BS <- pack(PAY[0 .. PLEN))`: the statement `PACK` and `EMBED` share (rules R85, R131 step 1). -/
def State.packPayload (s : State) : State := s.setBs (packBits s.payload)

/-- Write `unpack(BS)` to `PAY` from address 0 and set `PLEN`: the statements `UNPACK` and `EXTRACT` share (rules R88,
R136 step 3). -/
def State.storePayload (s : State) : State :=
  (s.setPay (s.pay.writeFrom 0 (unpackBits s.bs))).setPlen (s.bs.length / 8)

/-- `PACK`, opcode 0x01 (rule R85). -/
def execPack (s : State) : Result :=
  if s.payloadLegal then completeOk .pack s.packPayload else raise .pack .badOperand s

/-- `CHUNK`, opcode 0x02 (rule R86): `NBITS` as it stands, whatever `KIND` holds. -/
def execChunk (s : State) : Result :=
  if widthLegal s.nbits then completeOk .chunk (s.setSym (chunkBits s.bs s.nbits.toNat))
  else raise .chunk .badOperand s

/-- Every item of `SYM` fits `n` bits (third check of rule R87). -/
def symbolsFit (symbols : List Byte) (n : Nat) : Bool := symbols.all fun y => decide (y.toNat < 2 ^ n)

/-- `UNCHUNK`, opcode 0x03 (rule R87): the three checks in the rule's order. -/
def execUnchunk (s : State) : Result :=
  if !widthLegal s.nbits then raise .unchunk .badOperand s
  else if s.sym.length * s.nbits.toNat < s.totalBits.toNat then raise .unchunk .badOperand s
  else if !symbolsFit s.sym s.nbits.toNat then raise .unchunk .badOperand s
  else completeOk .unchunk (s.setBs (unchunkBits s.sym s.nbits.toNat s.totalBits.toNat))

/-- `UNPACK`, opcode 0x04 (rule R88). -/
def execUnpack (s : State) : Result :=
  if s.bs.length % 8 ≠ 0 then raise .unpack .malformedBitstream s
  else completeOk .unpack s.storePayload

end Sys2Proof.Machine
end

