-- ==== Sys2Proof/Machine/Capacity.lean ====
section
/-!
DEFINITION. The capacity validator: the capacity in bits (rule R123), the check (rule R121) and the command `VALIDATE`
(rule R122). The same statements run inside `EMBED` (rule R131 step 3).
-/

namespace Sys2Proof.Machine

/-- `validate(capacity, required)`: equality is accepted (rule R121). -/
def validateCapacity (capacity required : Nat) : ResultCode :=
  if required ≤ capacity then .ok else .insufficientCapacity

/-- The capacity in bits of the site sequence in `ST` at width `n` (rule R123). -/
def State.capacityBits (s : State) (n : Nat) : Nat := s.st.length * n

/-- `VALIDATE`, opcode 0x09 (rule R122): `CAP` is written whether or not the bitstream then fits. -/
def execValidate (s : State) : Result :=
  match s.selector with
  | none => raise .validate .badOperand s
  | some (_, n) =>
    conclude (encode .validate) (validateCapacity (s.capacityBits n) s.bs.length)
      (s.setCap (s.capacityBits n))

end Sys2Proof.Machine
end

