-- ==== Sys2Proof/Machine/SiteSelector.lean ====
section
/-!
DEFINITION. The site-address generator: the element index (rule R42), the three selector variants (rules R103, R104,
R105), the command `ORDER` (rule R102), and the reference permutation `PERM_REF` (rule R108), which is the spec's own
instance of `PERM` for vectors and not what the machine evaluates.
-/

namespace Sys2Proof.Machine

/-- The element index of the sample at `(row, col, channel)` in an image of `w` columns (rule R42). -/
def elementIndex (w row col channel : Nat) : Nat := (row * w + col) * Config.channels + channel

/-- The carrier address `(row, col, channel)` of an element index (rules R42, R114). -/
def carrierOf (w e : Nat) : Nat × Nat × Nat := 
  (e / (Config.channels * w), e / Config.channels % w, e % Config.channels)

/-- `order_seq(M)`: the identity sequence (rule R103). -/
def orderSeq (m : Nat) : List Nat := List.range m

/-- The samples of pixel `p`, in channel order: `[3p, 3p + 1, 3p + 2]` (rule R104). -/
def pixelSites (p : Nat) : List Nat := (List.range Config.channels).map fun c => Config.channels * p + c

/-- The concatenation of rule R104: the three samples of every pixel whose mask bit is set, in pixel order. -/
def maskSites (pixels : Nat) (mask : List Bool) : List Nat :=
  (List.range pixels).flatMap fun p => if bitAt mask p then pixelSites p else []

/-- `order_edge`: the mask is computed from the image as it stands now (rule R104). -/
def orderEdge (C : Collab) (s : State) : List Nat :=
  maskSites (s.height.toNat * s.width.toNat)
    (C.edgeDetect (s.img.readRange s.elemCount) s.height.toNat s.width.toNat s.lowThr s.highThr)

/-- `order_perm`: the whole permutation, not a prefix (rules R105, R112). -/
def orderPerm (C : Collab) (s : State) : List Nat := C.perm s.seed s.elemCount

/-- `order(KIND, …)` of rule R102, the site sequence of the current operands. -/
def siteSequence (C : Collab) (k : Kind) (s : State) : List Nat :=
  match k with
  | .seq => orderSeq s.elemCount
  | .edge => orderEdge C s
  | .perm => orderPerm C s

/-- `ST <- order(KIND, …)`: the statement `ORDER`, `EMBED` and `EXTRACT` share (rules R102, R131, R136). -/
def State.loadSites (s : State) (C : Collab) (k : Kind) : State := s.setSt (siteSequence C k s)

/-- `ORDER` over any pair of collaborators (rule R102). -/
def orderWith (C : Collab) (s : State) : Result :=
  match kindOf s.kind with
  | none => raise .order .badOperand s
  | some k => if s.imageLegal then completeOk .order (s.loadSites C k) else raise .order .badOperand s

/-- `ORDER`, opcode 0x08 (rule R102). -/
def execOrder (s : State) : Result := orderWith Config.collab s

/-- Swap two positions of a list. -/
def swapAt (pt : List Nat) (i j : Nat) : List Nat := (pt.set i (pt.getD j 0)).set j (pt.getD i 0)

/-- One draw of the generator of `PERM_REF` (rule R108). -/
def permRefDraw (s : Seed) : Seed := 1664525#32 * s + 1013904223#32

/-- The shuffle loop of `PERM_REF` for `i` from its first argument down to 1 (rule R108). -/
def permRefLoop : Nat → Seed → List Nat → List Nat
  | 0, _, pt => pt
  | i + 1, s, pt =>
    permRefLoop i (permRefDraw s)
      (swapAt pt (i + 1) ((permRefDraw s).toNat * (i + 2) / 2 ^ Config.seedW))

/-- `PERM_REF(seed, M)` (rule R108). -/
def permRef (seed : Seed) (m : Nat) : List Nat := permRefLoop (m - 1) seed (List.range m)

end Sys2Proof.Machine
end

