-- ==== Sys2Proof/Machine/Codec.lean ====
section
/-!
DEFINITION. The codec sequences `EMBED` (rule R131) and `EXTRACT` (rule R136), each written once over any pair of
collaborators and run by the machine with its own. The operand checks stand before any write, the capacity check
before the first write of `IMG`, the alignment check before the first write of `PAY` (rules R133, R138, R170).
-/

namespace Sys2Proof.Machine

/-- `EMBED` step 5: one read-modify-write per site and symbol, in increasing position (rules R49, R131, R132). -/
def writeSymbols (n : Nat) (m : Memory) : List (Word × Byte) → Memory
  | [] => m
  | (e, y) :: rest => writeSymbols n (m.write e.toNat (sampleUpdate n (m.read e.toNat) y)) rest

/-- `EMBED` steps 1 to 3 up to the check: the packed payload, the site sequence of the cover image, the capacity. -/
def State.embedPrepare (s : State) (C : Collab) (k : Kind) (n : Nat) : State :=
  let ordered := s.packPayload.loadSites C k
  ordered.setCap (ordered.capacityBits n)

/-- `EMBED` steps 4 to 6, after the check has passed: symbols, image, `TOTAL_BITS`. -/
def State.embedWrite (s : State) (n : Nat) : State :=
  let chunked := s.setSym (chunkBits s.bs n)
  let written := chunked.setImg (writeSymbols n chunked.img (chunked.st.zip chunked.sym))
  written.setTotalBits written.bs.length

/-- `EMBED` over any pair of collaborators (rule R131). -/
def embedWith (C : Collab) (s : State) : Result :=
  match s.selector with
  | none => raise .embed .badOperand s
  | some (k, n) =>
    if s.imageLegal && s.payloadLegal then
      let prepared := s.embedPrepare C k n
      match validateCapacity (prepared.capacityBits n) prepared.bs.length with
      | .ok => completeOk .embed (prepared.embedWrite n)
      | e => raise .embed e prepared
    else raise .embed .badOperand s

/-- `EMBED`, opcode 0x10 (rule R131). -/
def execEmbed (s : State) : Result := embedWith Config.collab s

/-- `EXTRACT` step 2: the low `n` bits of the samples at the first `count` sites, in order (rules R136, R137). -/
def State.readSymbols (s : State) (n count : Nat) : List Byte :=
  (s.st.take count).map fun e => sampleRead n (s.img.read e.toNat)

/-- `EXTRACT` step 2 and the first half of step 3: `SYM` from the image, `BS` from `SYM`. -/
def State.extractBits (s : State) (n count : Nat) : State :=
  let symbols := s.setSym (s.readSymbols n count)
  symbols.setBs (unchunkBits symbols.sym n symbols.totalBits.toNat)

/-- `EXTRACT` over any pair of collaborators (rule R136). -/
def extractWith (C : Collab) (s : State) : Result :=
  match s.selector with
  | none => raise .extract .badOperand s
  | some (k, n) =>
    if s.imageLegal then
      let ordered := s.loadSites C k
      let count := ceilDiv s.totalBits.toNat n
      if ordered.st.length < count then raise .extract .insufficientSites ordered
      else
        let bits := ordered.extractBits n count
        if bits.bs.length % 8 ≠ 0 then raise .extract .malformedBitstream bits
        else completeOk .extract bits.storePayload
    else raise .extract .badOperand s

/-- `EXTRACT`, opcode 0x11 (rule R136). -/
def execExtract (s : State) : Result := extractWith Config.collab s

end Sys2Proof.Machine
end

