-- ==== Sys2Proof/Machine/Dispatch.lean ====
section
/-!
DEFINITION. One arm per command of rule R62.
-/

namespace Sys2Proof.Machine

def exec (i : Instr) (s : State) : Host.Outcome State Fault Refusal :=
  match i with
  | .pack => Sys2Proof.Machine.execPack s
  | .chunk => Sys2Proof.Machine.execChunk s
  | .unchunk => Sys2Proof.Machine.execUnchunk s
  | .unpack => Sys2Proof.Machine.execUnpack s
  | .order => Sys2Proof.Machine.execOrder s
  | .validate => Sys2Proof.Machine.execValidate s
  | .embed => Sys2Proof.Machine.execEmbed s
  | .extract => Sys2Proof.Machine.execExtract s

end Sys2Proof.Machine
end

