-- ==== Sys2Proof/WellFormed.lean ====
section
/-!
DEFINITION. What is well formed. A command has no field that could be out of range (rules R61, R67), so every term
of `Instr` is well formed. A host transaction is well formed when the memory address it names exists (rules R30,
R31); its other fields are bounded by their types.
-/

namespace Sys2Proof

/-- Every command is well formed: the command word is its opcode and nothing else (rule R61). -/
def Instr.wf : Instr → Bool
  | .pack | .chunk | .unchunk | .unpack | .order | .validate | .embed | .extract => true

/-- A host access names an address of its space: `PAY` has `MAX_PLEN` bytes (rule R30), `IMG` has `MAX_ELEMS`
bytes (rule R31). -/
def Machine.Txn.wf : Machine.Txn → Bool
  | .writePay a _ | .readPay a => decide (a < Config.maxPlen)
  | .writeImg a _ | .readImg a => decide (a < Config.maxElems)
  | .cmd _ | .wr _ _ | .rd _ | .rdb _ _ | .reset => true

end Sys2Proof
end

