-- ==== Sys2Proof/Machine/Ports.lean ====
section
/-!
DEFINITION. What each host transaction does (rules R60, R63, R65, R66, R70), the host's accesses to its memories
(rules R30, R31), the reset input (rules R180 to R182), how the next transaction is taken, and the script
pseudo-instructions as lists of transactions (rule R72).
-/

namespace Sys2Proof.Machine

/-- Take the oldest transaction the host has issued, if there is one (rule R52). -/
def State.takeTxn (s : State) : Option (Txn × State) :=
  match s.inbox with
  | [] => none
  | t :: rest => some (t, { s with inbox := rest })

/-- `CMD w` (rule R63): a command runs its rule; a reserved word changes `STATUS` and nothing else (rule R66). -/
def issueCommand (w : Byte) (s : State) : Result :=
  match decodeWord w with
  | .ok i => exec i s
  | .error _ => conclude w .illegalCommand s

/-- `WR r, v` (rule R65): a reserved number ignores the write (rule R33). -/
def writeRegister (r : BitVec 5) (v : Word) (s : State) : State :=
  match regOfNumber r with
  | some n => s.writeReg n v
  | none => s

/-- `RD r` (rule R65): a reserved number reads as 0. -/
def readRegister (r : BitVec 5) (s : State) : Word :=
  match regOfNumber r with
  | some n => s.readReg n
  | none => 0#32

/-- Item `i` of the buffer that `buf` selects, zero-extended to 32 bits, if `i` is below its length; select 3 is
reserved and reads as 0 at every position (rule R70). -/
def bufferItem (buf : BitVec 2) (i : Nat) (s : State) : Option Word :=
  if buf = 0#2 then s.bs[i]?.map fun b => BitVec.ofNat Config.xlen b.toNat
  else if buf = 1#2 then s.sym[i]?.map fun y => y.setWidth Config.xlen
  else if buf = 2#2 then s.st[i]?
  else some 0#32

/-- `RDB buf, i` (rule R70): at or past the length the value is a free one (U4), which nothing constrains; drawing it
advances the model's own counter and nothing else. -/
def readBuffer (buf : BitVec 2) (i : Word) (s : State) : State :=
  match bufferItem buf i.toNat s with
  | some v => { s with reply := some (.value v) }
  | none => { s with reply := some (.value (Config.freeItem s.freeCount)), freeCount := s.freeCount + 1 }

/-- The reset input, between commands: the reset values for all the block holds (rule R180); `PAY` and `IMG` are the
host's and keep their content (rule R182), and so do the transactions the host has still to issue (DESIGN CHOICE, log
entry 2) and the count of free values. It never lands inside a command (DEDUCED, log entry 8). -/
def State.hostReset (s : State) : State :=
  { State.reset with pay := s.pay, img := s.img, inbox := s.inbox, freeCount := s.freeCount }

/-- Serve one transaction of the host. -/
def serve (t : Txn) (s : State) : Result :=
  match t with
  | .cmd w => issueCommand w s
  | .wr r v => .next { writeRegister r v s with reply := none }
  | .rd r => .next { s with reply := some (.value (readRegister r s)) }
  | .rdb buf i => .next (readBuffer buf i s)
  | .writePay a v =>
    if Txn.wf (.writePay a v) then .next { s with pay := s.pay.write a v, reply := none }
    else .fault (.payAddress a)
  | .readPay a =>
    if Txn.wf (.readPay a) then .next { s with reply := some (.byte (s.pay.read a)) }
    else .fault (.payAddress a)
  | .writeImg a v =>
    if Txn.wf (.writeImg a v) then .next { s with img := s.img.write a v, reply := none }
    else .fault (.imgAddress a)
  | .readImg a =>
    if Txn.wf (.readImg a) then .next { s with reply := some (.byte (s.img.read a)) }
    else .fault (.imgAddress a)
  | .reset => .next s.hostReset

/-- `CMD MNEMONIC` (rule R71). -/
def scriptCmd (i : Instr) : Txn := .cmd (encode i)

/-- `WR NAME, value` (rule R71). -/
def scriptWr (r : Reg) (v : Word) : Txn := .wr r.number v

/-- `RD NAME` (rule R71). -/
def scriptRd (r : Reg) : Txn := .rd r.number

/-- `LDPAY b0 b1 ... bk` (rule R72). -/
def scriptLdpay (bytes : List Byte) : List Txn :=
  bytes.mapIdx (fun i b => .writePay i b) ++ [scriptWr .plen (BitVec.ofNat Config.xlen bytes.length)]

/-- `LDIMG h, w, s0 s1 ...` (rule R72). -/
def scriptLdimg (h w : Word) (samples : List Byte) : List Txn :=
  [scriptWr .height h, scriptWr .width w] ++ samples.mapIdx (fun e v => .writeImg e v)

/-- `FILLIMG h, w, v` (rule R72). -/
def scriptFillimg (h w : Word) (v : Byte) : List Txn :=
  scriptLdimg h w (List.replicate (h.toNat * w.toNat * Config.channels) v)

/-- `CONFIG kind, n` (rule R72). -/
def scriptConfig (kind n : Word) : List Txn := [scriptWr .kind kind, scriptWr .nbits n]

/-- The host issues more transactions: they wait behind those not yet served (rule R52). -/
def State.submit (s : State) (ts : List Txn) : State := { s with inbox := s.inbox ++ ts }

end Sys2Proof.Machine
end

