-- ==== Sys2Proof/Machine/Step.lean ====
section
/-!
DEFINITION. One step of the machine: the block serves the next transaction the host has issued, whole (rules R8, R52,
R63). With none waiting it is idle and holds its state (rules R63, R178). There is no program counter and no fetch
from memory (rules R20, R54): the next command is the one at the head of the host's transactions.
-/

namespace Sys2Proof.Machine

def step (s : State) : Host.Outcome State Fault Refusal :=
  match s.takeTxn with
  | none => .next s
  | some (t, s') => serve t s'

/-- `s` with the instruction of `nbits` bits and value `w` issued on the command port as the very next transaction;
nothing else changes. It stands for the host, which issues every command (log entry 2). -/
def State.withFetchWord (s : State) (nbits w : Nat) : State :=
  { s with inbox := .cmd (tableByte nbits w) :: s.inbox }

end Sys2Proof.Machine
end

