-- ==== Sys2Proof/Safety.lean ====
section
/-!
DEFINITION. What counts as a good state and as a run that cannot stop. `Inv` is what every reachable state satisfies
and every step keeps: the reserved parts of `STATUS` (rule R21), the ranges of the status registers and buffers (rules
R22, R23, R24, R29), the shape of the site table (rules R28, R101), and the canonical form and extent of the two
memories (rules R30, R31, R56).
-/

namespace Sys2Proof.Machine

/-- The invariant of the block. -/
structure Inv (s : State) : Prop where
  /-- `STATUS.ERR` is one of the six codes; 6 and 7 never occur (rules R21, R161). -/
  errCode : s.err.toNat ≤ 5
  /-- `STATUS[7:3]` is always 0 (rule R21). -/
  reservedLow : s.status.extractLsb' 3 5 = 0#5
  /-- `STATUS[31:16]` is always 0 (rule R21). -/
  reservedHigh : s.status.extractLsb' 16 16 = 0#16
  /-- `BLEN` ranges to 2^32 - 1 (rule R22). -/
  bitstreamFits : s.bs.length < 2 ^ 32
  /-- `SYMCNT` ranges to 2^32 - 1 (rule R23). -/
  symbolsFit : s.sym.length < 2 ^ 32
  /-- `SLEN` ranges to `MAX_ELEMS` (rule R24). -/
  sitesFit : s.st.length ≤ Config.maxElems
  /-- Every item of `ST` is an address of `IMG` (rules R28, R56). -/
  sitesExist : ∀ e ∈ s.st, e.toNat < Config.maxElems
  /-- No item of `ST` occurs twice (rules R28, R101). -/
  sitesDistinct : s.st.Nodup
  /-- `CAP` ranges to `8 × MAX_ELEMS` (rule R29). -/
  capFits : s.cap.toNat ≤ 8 * Config.maxElems
  /-- `PAY` is in canonical form. -/
  payCanonical : s.pay.wf
  /-- `PAY` has `MAX_PLEN` bytes (rule R30). -/
  payExtent : s.pay.within Config.maxPlen
  /-- `IMG` is in canonical form. -/
  imgCanonical : s.img.wf
  /-- `IMG` has `MAX_ELEMS` bytes (rule R31). -/
  imgExtent : s.img.within Config.maxElems

/-- Every transaction the host has issued names an address that exists, so serving it cannot fault. -/
def Servable (s : State) : Prop := ∀ t ∈ s.inbox, t.wf = true

/-- `k` steps of the machine, stopping at the first stop. -/
def runSteps : Nat → State → Result
  | 0, s => .next s
  | k + 1, s =>
    match step s with
    | .next s' => runSteps k s'
    | .fault r => .fault r
    | .refused r => .refused r

end Sys2Proof.Machine
end

