-- ==== Sys2Proof/Certificates/Slice0/Obligations.lean ====
section
/-!
DEFINITION. The statements for the provers. Each docstring names the rule of `spec/` that the statement formalises.
`s.record w c` is `s` with `STATUS` and the returned result as command word `w` completing with code `c` leaves them
(rule R63); what those two fields then hold is pinned by `CommandRecordsResultAndWord`. Where a site sequence is read
from the image or from the permutation generator, the machine's own collaborators `Config.collab` appear: constants
without a body, so the statement holds whatever they are.
-/

open Sys2Proof Sys2Proof.Machine

namespace Sys2Proof.Claims

/-- The eight opcodes of rule R62. -/
def commandWords : List Byte := [0x01#8, 0x02#8, 0x03#8, 0x04#8, 0x08#8, 0x09#8, 0x10#8, 0x11#8]

/-- `n` is `n_eff(KIND, NBITS)` and no `BadOperand` of rule R120 applies. -/
def EffectiveWidth (s : State) (n : Nat) : Prop :=
  ((s.kind = 0#32 ∨ s.kind = 1#32) ∧ n = 1) ∨
  (s.kind = 2#32 ∧ 1 ≤ s.nbits.toNat ∧ s.nbits.toNat ≤ 8 ∧ n = s.nbits.toNat)

/-- The causes of `BadOperand`, command by command, as the table of rule R167 lists them. -/
def BadOperandCause (s : State) : Instr → Prop
  | .pack => s.plen.toNat > 536870911
  | .chunk => s.nbits = 0#32 ∨ s.nbits.toNat > 8
  | .unchunk => s.nbits = 0#32 ∨ s.nbits.toNat > 8 ∨ s.sym.length * s.nbits.toNat < s.totalBits.toNat ∨
      ∃ y ∈ s.sym, y.toNat ≥ 2 ^ s.nbits.toNat
  | .unpack => False
  | .order => s.kind.toNat > 2 ∨ s.height.toNat * s.width.toNat * 3 > 536870911
  | .validate => s.kind.toNat > 2 ∨ (s.kind.toNat = 2 ∧ (s.nbits = 0#32 ∨ s.nbits.toNat > 8))
  | .embed => s.kind.toNat > 2 ∨ (s.kind.toNat = 2 ∧ (s.nbits = 0#32 ∨ s.nbits.toNat > 8)) ∨
      s.height.toNat * s.width.toNat * 3 > 536870911 ∨ s.plen.toNat > 536870911
  | .extract => s.kind.toNat > 2 ∨ (s.kind.toNat = 2 ∧ (s.nbits = 0#32 ∨ s.nbits.toNat > 8)) ∨
      s.height.toNat * s.width.toNat * 3 > 536870911

/-- What `RD r` returns, number by number (rules R22, R23, R24, R33, R64). -/
def registerTable (s : State) (r : BitVec 5) : Word :=
  match r.toNat with
  | 0 => s.kind
  | 1 => s.nbits
  | 2 => s.height
  | 3 => s.width
  | 4 => s.totalBits
  | 5 => s.plen
  | 6 => s.seed
  | 7 => s.lowThr
  | 8 => s.highThr
  | 16 => s.status
  | 17 => BitVec.ofNat 32 s.bs.length
  | 18 => BitVec.ofNat 32 s.sym.length
  | 19 => BitVec.ofNat 32 s.st.length
  | 20 => s.cap
  | _ => 0#32

/-- Two states that give an `EXTRACT` the same operands: the registers rule R136 reads, those of the other variants
left free, as rule R140 lists them. -/
def SameSelection (s s' : State) : Prop :=
  s'.kind = s.kind ∧ (s.kind = 2#32 → s'.nbits = s.nbits) ∧ s'.height = s.height ∧ s'.width = s.width ∧
  s'.seed = s.seed ∧ s'.lowThr = s.lowThr ∧ s'.highThr = s.highThr

/-- The nine operand registers agree. -/
def SameOperands (s s' : State) : Prop :=
  s'.kind = s.kind ∧ s'.nbits = s.nbits ∧ s'.height = s.height ∧ s'.width = s.width ∧
  s'.totalBits = s.totalBits ∧ s'.plen = s.plen ∧ s'.seed = s.seed ∧ s'.lowThr = s.lowThr ∧ s'.highThr = s.highThr

/-- The image `IMG[0 .. M)` reads alike in two states. -/
def SameImage (s s' : State) : Prop := ∀ a, a < s.elemCount → s'.img.read a = s.img.read a

end Sys2Proof.Claims

open Sys2Proof.Claims

/-! ### Encoding and stepping -/

/-- Rules R61, R62, R69: the command word of every command decodes to that command, and the rest of the bytes is left
over untouched. -/
def Obligations.DecodeOfEncodeIsTheCommand : Prop :=
  ∀ (i : Instr) (rest : List Byte), decode (encode i :: rest) = .ok (i, rest)

/-- Rule R68: every one of the 256 command words is one of the eight opcodes, and then decodes to the command it
encodes, or is reserved and refused under its own name. -/
def Obligations.EveryCommandWordIsCommandOrReserved : Prop :=
  ∀ w : Byte, (w ∈ commandWords ∧ ∃ i, decodeWord w = .ok i ∧ encode i = w) ∨
    (w ∉ commandWords ∧ decodeWord w = .error (.reserved w))

/-- Rule R62: the eight opcodes, written out bit by bit, are the eight commands. -/
def Obligations.OpcodeMapWrittenOut : Prop :=
  decodeWord 0b00000001#8 = .ok .pack ∧ decodeWord 0b00000010#8 = .ok .chunk ∧
  decodeWord 0b00000011#8 = .ok .unchunk ∧ decodeWord 0b00000100#8 = .ok .unpack ∧
  decodeWord 0b00001000#8 = .ok .order ∧ decodeWord 0b00001001#8 = .ok .validate ∧
  decodeWord 0b00010000#8 = .ok .embed ∧ decodeWord 0b00010001#8 = .ok .extract

/-- Rules R20, R63: when the next transaction is a command word that decodes, the step is that command's meaning, on
the state without that transaction; issuing a command's word makes the very next step its meaning. -/
def Obligations.StepRunsTheDecodedCommand : Prop :=
  (∀ (s : State) (w : Byte) (rest : List Txn) (i : Instr),
    s.inbox = .cmd w :: rest → decode [w] = .ok (i, []) → step s = exec i { s with inbox := rest }) ∧
  (∀ (s : State) (i : Instr), step (s.withFetchWord 8 (encode i).toNat) = exec i s)

/-- Rules R66, R168: a reserved command word completes with `IllegalCommand` and changes `STATUS` and nothing else. -/
def Obligations.ReservedWordChangesStatusOnly : Prop :=
  ∀ (s : State) (w : Byte) (rest : List Txn), s.inbox = .cmd w :: rest → w ∉ commandWords →
    ∃ t, step s = .next t ∧
      t = { s with inbox := rest, status := t.status, reply := some (.result .illegalCommand) } ∧
      t.err = 5#3 ∧ t.lastop = w ∧ t.status.toNat = w.toNat * 256 + 5

/-- Rule R178: with no transaction waiting the block is idle and holds its state. -/
def Obligations.IdleBlockHoldsItsState : Prop :=
  ∀ s : State, s.inbox = [] → step s = .next s

/-- Rules R21, R63, R161, R192: every command word, legal or reserved, from every state, completes in a next state
with one of the six codes; `ERR` holds the code, `LASTOP` the word, the reserved fields 0; the code is
`IllegalCommand` exactly for a reserved word; and the transaction returns the code. -/
def Obligations.CommandRecordsResultAndWord : Prop :=
  ∀ (s : State) (w : Byte) (rest : List Txn), s.inbox = .cmd w :: rest →
    ∃ (t : State) (c : ResultCode), step s = .next t ∧ t.reply = some (.result c) ∧ t.err = c.code ∧
      t.err.toNat ≤ 5 ∧ t.lastop = w ∧ t.status.extractLsb' 3 5 = 0#5 ∧ t.status.extractLsb' 16 16 = 0#16 ∧
      (c = .illegalCommand ↔ w ∉ commandWords) ∧ t.inbox = rest

/-- Rules R30, R31, R56, R192: a step stops only where the HOST names an address that its memory does not have; from
a state in which every waiting transaction names an address that exists, the step completes and that stays so. -/
def Obligations.OnlyMissingHostAddressesStop : Prop :=
  (∀ s : State, Servable s → ∃ t, step s = .next t ∧ Servable t) ∧
  (∀ (s : State) (x : Txn) (rest : List Txn), s.inbox = x :: rest → x.wf = false → ∃ r, step s = .fault r)

/-- Rule R21: no command reads `STATUS`, so no earlier result changes what a command does; nor what was returned. -/
def Obligations.NoCommandReadsStatus : Prop :=
  ∀ (i : Instr) (s : State) (w : Word) (r : Option Reply), exec i { s with status := w, reply := r } = exec i s

/-! ### Reset and the ports -/

/-- Rule R34: the register and buffer values after reset, read register by register. -/
def Obligations.ResetLeavesTheStatedValues : Prop :=
  (∀ r : BitVec 5, readRegister r State.reset = if r = 1#5 then 1#32 else 0#32) ∧
  State.reset.err = ResultCode.ok.code ∧ State.reset.lastop = 0#8 ∧
  State.reset.bs = [] ∧ State.reset.sym = [] ∧ State.reset.st = []

/-- Rules R180, R181, R182: the reset input returns every register and buffer to its reset value and leaves both
memories as they were. (That the host's waiting transactions stay is the model's choice, log entry 2.) -/
def Obligations.ResetInputKeepsTheMemories : Prop :=
  ∀ (s : State) (rest : List Txn), s.inbox = .reset :: rest →
    ∃ t, step s = .next t ∧ (∀ r : BitVec 5, readRegister r t = readRegister r State.reset) ∧
      t.bs = [] ∧ t.sym = [] ∧ t.st = [] ∧ t.pay = s.pay ∧ t.img = s.img ∧ t.inbox = rest

/-- Rules R33, R64, R65: `WR` sets exactly the operand register it names, whatever the value; at any other number it
changes nothing; `RD` returns the table's value and changes nothing but what is returned. -/
def Obligations.RegisterPortFollowsItsTable : Prop :=
  (∀ (s : State) (r : BitVec 5) (v : Word) (rest : List Txn), s.inbox = .wr r v :: rest →
    ∃ t, step s = .next t ∧
      (∀ q : BitVec 5, registerTable t q = if q = r ∧ r.toNat ≤ 8 then v else registerTable s q) ∧
      t = { s with inbox := rest, reply := none, kind := t.kind, nbits := t.nbits, height := t.height,
                   width := t.width, totalBits := t.totalBits, plen := t.plen, seed := t.seed,
                   lowThr := t.lowThr, highThr := t.highThr }) ∧
  (∀ (s : State) (r : BitVec 5) (rest : List Txn), s.inbox = .rd r :: rest →
    step s = .next { s with inbox := rest, reply := some (.value (registerTable s r)) })

/-- Rule R70: `RDB` returns the item below the buffer's length, zero-extended, and 0 for select 3; at or past the
length some value, about which nothing is said; it changes nothing but what is returned (and the model's own count of
free values, log entry 3). -/
def Obligations.BufferPortReadsTheItem : Prop :=
  ∀ (s : State) (buf : BitVec 2) (i : Word) (rest : List Txn), s.inbox = .rdb buf i :: rest →
    ∃ (t : State) (v : Word), step s = .next t ∧
      t = { s with inbox := rest, reply := some (.value v), freeCount := t.freeCount } ∧
      (buf = 0#2 → ∀ h : i.toNat < s.bs.length, v.toNat = (s.bs[i.toNat]'h).toNat) ∧
      (buf = 1#2 → ∀ h : i.toNat < s.sym.length, v.toNat = (s.sym[i.toNat]'h).toNat) ∧
      (buf = 2#2 → ∀ h : i.toNat < s.st.length, v = s.st[i.toNat]'h) ∧
      (buf = 3#2 → v = 0#32)

/-- Rules R30, R31, R44, R50: a host write changes the one byte it names and no other; a host read returns the byte
and changes no memory. Outside the address space the model faults (the model's choice, log entry 4). -/
def Obligations.HostAccessesOneByte : Prop :=
  (∀ (s : State) (a : Nat) (v : Byte) (rest : List Txn), s.inbox = .writePay a v :: rest →
    (a < 536870911 → ∃ t, step s = .next t ∧ (∀ b, t.pay.read b = if b = a then v else s.pay.read b) ∧
      t = { s with inbox := rest, reply := none, pay := t.pay }) ∧
    (536870911 ≤ a → step s = .fault (.payAddress a))) ∧
  (∀ (s : State) (a : Nat) (v : Byte) (rest : List Txn), s.inbox = .writeImg a v :: rest →
    (a < 536870911 → ∃ t, step s = .next t ∧ (∀ b, t.img.read b = if b = a then v else s.img.read b) ∧
      t = { s with inbox := rest, reply := none, img := t.img }) ∧
    (536870911 ≤ a → step s = .fault (.imgAddress a))) ∧
  (∀ (s : State) (a : Nat) (rest : List Txn), s.inbox = .readPay a :: rest → a < 536870911 →
    step s = .next { s with inbox := rest, reply := some (.byte (s.pay.read a)) }) ∧
  (∀ (s : State) (a : Nat) (rest : List Txn), s.inbox = .readImg a :: rest → a < 536870911 →
    step s = .next { s with inbox := rest, reply := some (.byte (s.img.read a)) })

/-- The model's canonical form: two memories in canonical form that read alike at every address are equal. -/
def Obligations.CanonicalMemoriesReadingAlikeAreEqual : Prop :=
  ∀ m m' : Memory, m.wf → m'.wf → (∀ a, m.read a = m'.read a) → m = m'

/-- Rule R72: serving the transactions that `LDPAY b0 ... bk` stands for leaves the bytes at `PAY[0 .. k]`, their
number in `PLEN`, and every other address of `PAY` and every other register as they were. -/
def Obligations.LdpayLoadsThePayload : Prop :=
  ∀ (s : State) (bytes : List Byte), bytes.length ≤ 536870911 → s.inbox = scriptLdpay bytes →
    ∃ t, runSteps (bytes.length + 1) s = .next t ∧
      t = { s with inbox := [], reply := none, pay := t.pay, plen := t.plen } ∧
      t.plen.toNat = bytes.length ∧
      (∀ i (h : i < bytes.length), t.pay.read i = bytes[i]'h) ∧
      (∀ a, bytes.length ≤ a → t.pay.read a = s.pay.read a)

/-! ### The bit packer -/

/-- Rule R85 (with R45, R80): `PACK` puts the payload's bits into `BS`, byte by byte, most significant bit first, or
ends with `BadOperand` when `PLEN` exceeds `MAX_PLEN`; nothing else changes. -/
def Obligations.PackSpellsThePayload : Prop :=
  ∀ s : State,
    (s.plen.toNat ≤ 536870911 → ∃ t, exec .pack s = .next t ∧
      t = { s with bs := t.bs }.record 0x01#8 .ok ∧ t.bs.length = 8 * s.plen.toNat ∧
      t.blen.toNat = 8 * s.plen.toNat ∧
      ∀ i j, i < s.plen.toNat → j < 8 → t.bs[8 * i + j]? = some ((s.pay.read i).getLsbD (7 - j))) ∧
    (s.plen.toNat > 536870911 → exec .pack s = .next (s.record 0x01#8 .badOperand))

/-- Rule R86 (with R46, R81): `CHUNK` splits `BS` into groups of `NBITS` bits, first bit most significant, the last
group padded on the right with zeros, or ends with `BadOperand` when `NBITS` is not 1 to 8; nothing else changes. -/
def Obligations.ChunkSplitsAndPads : Prop :=
  ∀ (s : State) (n : Nat), n = s.nbits.toNat →
    (1 ≤ n → n ≤ 8 → ∃ t, exec .chunk s = .next t ∧ t = { s with sym := t.sym }.record 0x02#8 .ok ∧
      t.sym.length = (s.bs.length + n - 1) / n ∧
      (∀ k < t.sym.length, ∀ j < n,
        (t.sym.getD k 0#8).getLsbD (n - 1 - j) = s.bs.getD (k * n + j) false) ∧
      ∀ y ∈ t.sym, y.toNat < 2 ^ n) ∧
    (n = 0 ∨ n > 8 → exec .chunk s = .next (s.record 0x02#8 .badOperand))

/-- Rule R87 (with R82): `UNCHUNK` puts exactly `TOTAL_BITS` bits of the symbols into `BS`, or ends with
`BadOperand` in one of the rule's three cases; nothing else changes. -/
def Obligations.UnchunkTruncatesToTotalBits : Prop :=
  ∀ (s : State) (n : Nat), n = s.nbits.toNat →
    (1 ≤ n → n ≤ 8 → s.totalBits.toNat ≤ s.sym.length * n → (∀ y ∈ s.sym, y.toNat < 2 ^ n) →
      ∃ t, exec .unchunk s = .next t ∧ t = { s with bs := t.bs }.record 0x03#8 .ok ∧
        t.bs.length = s.totalBits.toNat ∧ t.blen = s.totalBits ∧
        ∀ i < s.totalBits.toNat, t.bs[i]? = some ((s.sym.getD (i / n) 0#8).getLsbD (n - 1 - i % n))) ∧
    ((n = 0 ∨ n > 8 ∨ s.sym.length * n < s.totalBits.toNat ∨ ∃ y ∈ s.sym, 2 ^ n ≤ y.toNat) →
      exec .unchunk s = .next (s.record 0x03#8 .badOperand))

/-- Rule R88 (with R83): `UNPACK` writes the bytes `BS` spells to `PAY` from address 0 and their number to `PLEN`, or
ends with `MalformedBitstream` when `BLEN` is no multiple of 8; nothing else changes, no other byte of `PAY` either.
The premise is the range of `BLEN` (rule R22), part of the invariant. -/
def Obligations.UnpackWritesWholeBytes : Prop :=
  ∀ s : State, s.bs.length < 2 ^ 32 →
    (s.bs.length % 8 = 0 → ∃ t, exec .unpack s = .next t ∧
      t = { s with pay := t.pay, plen := t.plen }.record 0x04#8 .ok ∧ t.plen.toNat = s.bs.length / 8 ∧
      (∀ i j, i < s.bs.length / 8 → j < 8 →
        (t.pay.read i).getLsbD (7 - j) = s.bs.getD (8 * i + j) false) ∧
      ∀ a, s.bs.length / 8 ≤ a → t.pay.read a = s.pay.read a) ∧
    (s.bs.length % 8 ≠ 0 → exec .unpack s = .next (s.record 0x04#8 .malformedBitstream))

/-- Rule R89: chunking and unchunking with the right bit count gives the bits back, and so packing, chunking,
unchunking and unpacking gives the bytes back, for every width. -/
def Obligations.PaddingIsTruncatedAway : Prop :=
  ∀ n, 1 ≤ n → n ≤ 8 →
    (∀ bits : List Bool, unchunkBits (chunkBits bits n) n bits.length = bits) ∧
    (∀ bytes : List Byte,
      unpackBits (unchunkBits (chunkBits (packBits bytes) n) n (8 * bytes.length)) = bytes)

/-- Rule R90: `pack` and `unpack` undo each other. -/
def Obligations.PackAndUnpackAreInverse : Prop :=
  (∀ bytes : List Byte, unpackBits (packBits bytes) = bytes) ∧
  (∀ bits : List Bool, bits.length % 8 = 0 → packBits (unpackBits bits) = bits)

/-- Rule R91: the four lengths, and that after an `UNCHUNK` an `UNPACK` is malformed exactly when `TOTAL_BITS` is no
multiple of 8. -/
def Obligations.LengthsOfTheFourFunctions : Prop :=
  (∀ bytes : List Byte, (packBits bytes).length % 8 = 0) ∧
  (∀ (bits : List Bool) (n : Nat), 1 ≤ n → n ≤ 8 → (chunkBits bits n).length = (bits.length + n - 1) / n) ∧
  (∀ (symbols : List Byte) (n t : Nat), (unchunkBits symbols n t).length = t) ∧
  (∀ bits : List Bool, (unpackBits bits).length = bits.length / 8) ∧
  (∀ s t u : State, exec .unchunk s = .next t → t.err = ResultCode.ok.code → exec .unpack t = .next u →
    (u.err = ResultCode.malformedBitstream.code ↔ s.totalBits.toNat % 8 ≠ 0))

/-- Rule R92: every symbol of a `chunk` is below 2^n, so a `SYM` written by `CHUNK` passes the checks of `UNCHUNK`
under the same `NBITS` whenever `TOTAL_BITS` is at most the `BLEN` of the `CHUNK`. -/
def Obligations.ChunkedSymbolsPassUnchunk : Prop :=
  (∀ (bits : List Bool) (n : Nat), 1 ≤ n → n ≤ 8 → ∀ y ∈ chunkBits bits n, y.toNat < 2 ^ n) ∧
  (∀ (s t : State) (v : Word), exec .chunk s = .next t → t.err = ResultCode.ok.code →
    v.toNat ≤ s.bs.length →
    ∃ u, exec .unchunk { t with totalBits := v } = .next u ∧ u.err = ResultCode.ok.code)

/-! ### The site-address generator -/

/-- Rules R102 to R105: `ORDER` fills `ST` by the variant of `KIND`: all `M` indices in order; or, in increasing order,
exactly the samples of the pixels whose mask bit is set; or the permutation, which is one of `0 .. M-1`. It ends with
`BadOperand` for `KIND` above 2 or `M` above `MAX_ELEMS`. Nothing else changes. -/
def Obligations.OrderFillsTheSiteTable : Prop :=
  ∀ (s : State) (m : Nat), m = s.height.toNat * s.width.toNat * 3 →
    (m ≤ 536870911 → s.kind.toNat ≤ 2 → ∃ t, exec .order s = .next t ∧
      t = { s with st := t.st }.record 0x08#8 .ok ∧
      (s.kind = 0#32 → t.st.map BitVec.toNat = List.range m) ∧
      (s.kind = 1#32 → (t.st.map BitVec.toNat).Pairwise (· < ·) ∧
        ∀ e, e ∈ t.st.map BitVec.toNat ↔ e < m ∧
          (Config.collab.edgeDetect ((List.range m).map s.img.read) s.height.toNat s.width.toNat
            s.lowThr s.highThr).getD (e / 3) false = true) ∧
      (s.kind = 2#32 → t.st.map BitVec.toNat = Config.collab.perm s.seed m ∧
        (t.st.map BitVec.toNat).Perm (List.range m))) ∧
    (s.kind.toNat > 2 ∨ m > 536870911 → exec .order s = .next (s.record 0x08#8 .badOperand))

/-- Rule R101: for every lawful pair of collaborators and every legal image, a site sequence lists distinct indices
below `M`, at most `M` of them. -/
def Obligations.SiteSequencesAreDistinctIndices : Prop :=
  ∀ (C : Collab) (s : State) (k : Kind), C.Lawful → s.elemCount ≤ 536870911 →
    (∀ e ∈ siteSequence C k s, e < s.height.toNat * s.width.toNat * 3) ∧
    (siteSequence C k s).Nodup ∧ (siteSequence C k s).length ≤ s.height.toNat * s.width.toNat * 3

/-- Rule R110: the number of sites of each variant. -/
def Obligations.SlotsPerVariant : Prop :=
  ∀ (C : Collab) (s : State), C.Lawful → s.elemCount ≤ 536870911 →
    (siteSequence C .seq s).length = s.height.toNat * s.width.toNat * 3 ∧
    (siteSequence C .edge s).length =
      3 * (C.edgeDetect (s.img.readRange s.elemCount) s.height.toNat s.width.toNat s.lowThr s.highThr).count true ∧
    (siteSequence C .perm s).length = s.height.toNat * s.width.toNat * 3

/-- Rule R111: equal operands (and for the edge variant equal thresholds and equal images) give equal sequences,
whatever else differs between the two states. -/
def Obligations.OrderIsDeterministic : Prop :=
  ∀ (C : Collab) (s s' : State), s'.height = s.height → s'.width = s.width →
    siteSequence C .seq s' = siteSequence C .seq s ∧
    (s'.lowThr = s.lowThr → s'.highThr = s.highThr → SameImage s s' →
      siteSequence C .edge s' = siteSequence C .edge s) ∧
    (s'.seed = s.seed → siteSequence C .perm s' = siteSequence C .perm s)

/-- Rule R42: the element index of `(row, col, channel)` is below `M` and leads back to the triple, and every index
below `M` is that of its triple; the pixel index is `row × WIDTH + col`. -/
def Obligations.ElementIndexIsABijection : Prop :=
  (∀ h w row col channel, row < h → col < w → channel < 3 →
    elementIndex w row col channel < h * w * 3 ∧
    carrierOf w (elementIndex w row col channel) = (row, col, channel) ∧
    elementIndex w row col channel / 3 = row * w + col) ∧
  (∀ h w e, e < h * w * 3 → (carrierOf w e).1 < h ∧ (carrierOf w e).2.1 < w ∧ (carrierOf w e).2.2 < 3 ∧
    elementIndex w (carrierOf w e).1 (carrierOf w e).2.1 (carrierOf w e).2.2 = e)

/-- Rules R106, R108: the reference instance `PERM_REF` yields a permutation of `0 .. M-1` for every seed. -/
def Obligations.ReferencePermutationIsLawful : Prop :=
  ∀ (seed : Word) (m : Nat), m ≤ 536870911 → (permRef seed m).Perm (List.range m)

/-- Rules R106, R109: the machine's own collaborators meet the whole law the block assumes, whatever the free values
behind them are. -/
def Obligations.MachineCollaboratorsAreLawful : Prop := Config.collab.Lawful

/-! ### The capacity validator -/

/-- Rule R122 (with R120, R121, R123): `VALIDATE` writes the capacity in bits to `CAP` and answers whether `BLEN`
fits, equality accepted, or ends with `BadOperand`; nothing else changes. The premise is the range of `SLEN`
(rule R24), part of the invariant. -/
def Obligations.ValidateComparesLengthWithCapacity : Prop :=
  ∀ s : State, s.st.length ≤ 536870911 →
    (∀ n, EffectiveWidth s n → ∃ t, exec .validate s = .next t ∧
      t = { s with cap := t.cap }.record 0x09#8
        (if s.bs.length > s.st.length * n then .insufficientCapacity else .ok) ∧
      t.cap.toNat = s.st.length * n) ∧
    ((∀ n, ¬ EffectiveWidth s n) → exec .validate s = .next (s.record 0x09#8 .badOperand))

/-- Rule R125: with the same sites and width a shorter bitstream than an accepted one is accepted and a longer one
than a rejected one is rejected; and for `PERM` a larger `NBITS` never turns `Ok` into `InsufficientCapacity`. -/
def Obligations.CapacityIsMonotone : Prop :=
  (∀ s s' t t' : State, s'.kind = s.kind → s'.nbits = s.nbits → s'.st.length = s.st.length →
    s'.bs.length ≤ s.bs.length → exec .validate s = .next t → exec .validate s' = .next t' →
    (t.err = ResultCode.ok.code → t'.err = ResultCode.ok.code) ∧
    (t'.err = ResultCode.insufficientCapacity.code → t.err = ResultCode.insufficientCapacity.code)) ∧
  (∀ s s' t t' : State, s.kind = 2#32 → s'.kind = 2#32 → s'.st.length = s.st.length →
    s'.bs.length = s.bs.length → s.nbits.toNat ≤ s'.nbits.toNat → s'.nbits.toNat ≤ 8 →
    exec .validate s = .next t → exec .validate s' = .next t' → t.err = ResultCode.ok.code →
    t'.err = ResultCode.ok.code)

/-! ### The codec -/

/-- Rule R131: `EMBED` packs the payload, computes the site sequence from the cover image and the capacity, and then
either ends with `InsufficientCapacity`, the image untouched, or chunks the bits and updates the sample at each of the
first `SYMCNT` sites, every other byte of `IMG` staying as it was, and writes `TOTAL_BITS`. With an operand outside its
domain it ends with `BadOperand`. Nothing else changes. -/
def Obligations.EmbedWritesSymbolsIntoSites : Prop :=
  ∀ (s : State) (m : Nat), m = s.height.toNat * s.width.toNat * 3 →
    (∀ (k : Kind) (n : Nat) (sites : List Nat) (bits : List Bool), kindOf s.kind = some k → EffectiveWidth s n →
      m ≤ 536870911 → s.plen.toNat ≤ 536870911 →
      sites = siteSequence Config.collab k s → bits = packBits ((List.range s.plen.toNat).map s.pay.read) →
      (8 * s.plen.toNat ≤ sites.length * n → ∃ t, exec .embed s = .next t ∧
        t = { s with img := t.img, totalBits := t.totalBits, bs := bits, st := t.st, cap := t.cap,
                     sym := chunkBits bits n }.record 0x10#8 .ok ∧
        t.st.map BitVec.toNat = sites ∧ t.cap.toNat = sites.length * n ∧
        t.totalBits.toNat = 8 * s.plen.toNat ∧ t.sym.length ≤ sites.length ∧
        (∀ j, j < t.sym.length →
          t.img.read (sites.getD j 0) = sampleUpdate n (s.img.read (sites.getD j 0)) (t.sym.getD j 0#8)) ∧
        (∀ a, a ∉ sites.take t.sym.length → t.img.read a = s.img.read a)) ∧
      (sites.length * n < 8 * s.plen.toNat → ∃ t, exec .embed s = .next t ∧
        t = { s with bs := bits, st := t.st, cap := t.cap }.record 0x10#8 .insufficientCapacity ∧
        t.st.map BitVec.toNat = sites ∧ t.cap.toNat = sites.length * n)) ∧
    ((∀ n, ¬ EffectiveWidth s n) ∨ m > 536870911 ∨ s.plen.toNat > 536870911 →
      exec .embed s = .next (s.record 0x10#8 .badOperand))

/-- Rules R132, R137, R149: the sample update keeps bits 7 down to `n` of the sample and puts the symbol into bits
`n - 1` down to 0; the sample read gives those bits, is below 2^n, and after an update gives the symbol back; width 1
is the masks 0xFE and 0x01. -/
def Obligations.SampleUpdateAndReadBitByBit : Prop :=
  (∀ (n : Nat) (v y : Byte), 1 ≤ n → n ≤ 8 → y.toNat < 2 ^ n →
    (∀ i < 8, (sampleUpdate n v y).getLsbD i = if i < n then y.getLsbD i else v.getLsbD i) ∧
    sampleRead n (sampleUpdate n v y) = y) ∧
  (∀ (n : Nat) (v : Byte), 1 ≤ n → n ≤ 8 → (sampleRead n v).toNat = v.toNat % 2 ^ n) ∧
  (∀ v y : Byte, y.toNat < 2 → sampleUpdate 1 v y = (v &&& 0xFE#8) ||| y ∧ sampleRead 1 v = v &&& 0x01#8)

/-- Rule R142: after an `EMBED` that completes `Ok`, the sample at each of the first `SYMCNT` sites has its low
`n_eff` bits equal to the symbol and the others as before, and every other sample is unchanged. -/
def Obligations.EmbedIsolatesLowBits : Prop :=
  ∀ (s t : State) (n : Nat), EffectiveWidth s n → exec .embed s = .next t → t.err = ResultCode.ok.code →
    (∀ j, j < t.sym.length → ∀ b < 8, (t.img.read (t.st.getD j 0#32).toNat).getLsbD b =
      if b < n then (t.sym.getD j 0#8).getLsbD b else (s.img.read (t.st.getD j 0#32).toNat).getLsbD b) ∧
    (∀ a, (∀ j, j < t.sym.length → (t.st.getD j 0#32).toNat ≠ a) → t.img.read a = s.img.read a)

/-- Rule R141: an `EMBED` that fails leaves the image as it was, whatever the failure. -/
def Obligations.FailedEmbedLeavesTheImage : Prop :=
  ∀ s t : State, exec .embed s = .next t → t.err ≠ ResultCode.ok.code → t.img = s.img

/-- Rule R133: what a failed `EMBED` leaves: after `BadOperand` everything but `STATUS`; after `InsufficientCapacity`
the packed payload in `BS`, the site sequence in `ST`, the capacity in `CAP`, and everything else. -/
def Obligations.FailedEmbedLeavesScratch : Prop :=
  ∀ s t : State, exec .embed s = .next t →
    (t.err = ResultCode.badOperand.code → t = s.record 0x10#8 .badOperand) ∧
    (t.err = ResultCode.insufficientCapacity.code →
      t = { s with bs := t.bs, st := t.st, cap := t.cap }.record 0x10#8 .insufficientCapacity ∧
      t.bs = packBits ((List.range s.plen.toNat).map s.pay.read) ∧
      (∃ k, kindOf s.kind = some k ∧ t.st.map BitVec.toNat = siteSequence Config.collab k s) ∧
      (∃ n, EffectiveWidth s n ∧ t.cap.toNat = t.st.length * n) ∧ t.cap.toNat < t.bs.length)

/-- Rule R134: `EMBED` writes `TOTAL_BITS` only on success, with `8 × PLEN`; on any failure it keeps its old value. -/
def Obligations.EmbedReturnsTotalBits : Prop :=
  ∀ s t : State, exec .embed s = .next t →
    (t.err = ResultCode.ok.code → t.totalBits.toNat = 8 * s.plen.toNat) ∧
    (t.err ≠ ResultCode.ok.code → t.totalBits = s.totalBits)

/-- Rule R136: `EXTRACT` computes the site sequence of the image, reads the low bits of the samples at the first
`K = ceil(TOTAL_BITS / n)` sites, unchunks them to `TOTAL_BITS` bits and writes the bytes to `PAY` and their number to
`PLEN`; it ends with `InsufficientSites`, `MalformedBitstream` or `BadOperand` where the rule says, in that order of
checking (operands first). Nothing else changes, no other byte of `PAY` and no byte of `IMG`. -/
def Obligations.ExtractReadsSymbolsFromSites : Prop :=
  ∀ (s : State) (m : Nat), m = s.height.toNat * s.width.toNat * 3 →
    (∀ (k : Kind) (n : Nat) (sites : List Nat) (count : Nat), kindOf s.kind = some k → EffectiveWidth s n →
      m ≤ 536870911 → sites = siteSequence Config.collab k s → count = (s.totalBits.toNat + n - 1) / n →
      (count ≤ sites.length → s.totalBits.toNat % 8 = 0 → ∃ t, exec .extract s = .next t ∧
        t = { s with st := t.st, sym := t.sym, bs := unchunkBits t.sym n s.totalBits.toNat, pay := t.pay,
                     plen := t.plen }.record 0x11#8 .ok ∧
        t.st.map BitVec.toNat = sites ∧ t.sym.length = count ∧
        (∀ j, j < count → (t.sym.getD j 0#8).toNat = (s.img.read (sites.getD j 0)).toNat % 2 ^ n) ∧
        t.plen.toNat = s.totalBits.toNat / 8 ∧
        (∀ i b, i < s.totalBits.toNat / 8 → b < 8 →
          (t.pay.read i).getLsbD (7 - b) = t.bs.getD (8 * i + b) false) ∧
        (∀ a, s.totalBits.toNat / 8 ≤ a → t.pay.read a = s.pay.read a)) ∧
      (sites.length < count → ∃ t, exec .extract s = .next t ∧
        t = { s with st := t.st }.record 0x11#8 .insufficientSites ∧ t.st.map BitVec.toNat = sites) ∧
      (count ≤ sites.length → s.totalBits.toNat % 8 ≠ 0 → ∃ t, exec .extract s = .next t ∧
        t = { s with st := t.st, sym := t.sym, bs := unchunkBits t.sym n s.totalBits.toNat }.record 0x11#8
          .malformedBitstream ∧
        t.st.map BitVec.toNat = sites ∧ t.sym.length = count ∧
        (∀ j, j < count → (t.sym.getD j 0#8).toNat = (s.img.read (sites.getD j 0)).toNat % 2 ^ n))) ∧
    ((∀ n, ¬ EffectiveWidth s n) ∨ m > 536870911 → exec .extract s = .next (s.record 0x11#8 .badOperand))

/-- Rule R138: what a failed `EXTRACT` leaves (in each case `PAY` and `PLEN` as before); and whatever its result, `EXTRACT`
changes neither `IMG` nor an operand register other than `PLEN`. -/
def Obligations.FailedExtractLeavesThePayload : Prop :=
  ∀ s t : State, exec .extract s = .next t →
    (t.err = ResultCode.badOperand.code → t = s.record 0x11#8 .badOperand) ∧
    (t.err = ResultCode.insufficientSites.code →
      t = { s with st := t.st }.record 0x11#8 .insufficientSites ∧
      ∃ k, kindOf s.kind = some k ∧ t.st.map BitVec.toNat = siteSequence Config.collab k s) ∧
    (t.err = ResultCode.malformedBitstream.code →
      t = { s with st := t.st, sym := t.sym, bs := t.bs }.record 0x11#8 .malformedBitstream ∧
      (∃ k, kindOf s.kind = some k ∧ t.st.map BitVec.toNat = siteSequence Config.collab k s) ∧
      (∃ n, EffectiveWidth s n ∧ t.sym.length = (s.totalBits.toNat + n - 1) / n ∧
        t.sym = (t.st.take t.sym.length).map (fun e => sampleRead n (s.img.read e.toNat)) ∧
        t.bs = unchunkBits t.sym n s.totalBits.toNat) ∧
      t.bs.length = s.totalBits.toNat) ∧
    t.img = s.img ∧ SameOperands { s with plen := t.plen } t

/-- Rule R140: the round trip. Whatever the selector, if `EMBED` completes `Ok` and `EXTRACT` then runs, in any
state, with the same selection, the `TOTAL_BITS` and the image the `EMBED` left, and the site sequence it computes
agrees with the embedding one on the sites used, then it completes `Ok` with the payload and its length. For `SEQ` and
`PERM` the premise on the site sequences always holds. -/
def Obligations.ExtractUndoesEmbed : Prop :=
  (∀ (s t s' : State) (k : Kind) (n : Nat), exec .embed s = .next t → t.err = ResultCode.ok.code →
    kindOf s.kind = some k → EffectiveWidth s n → SameSelection s s' → s'.totalBits = t.totalBits →
    SameImage t s' →
    (siteSequence Config.collab k s').take ((8 * s.plen.toNat + n - 1) / n) =
      (siteSequence Config.collab k s).take ((8 * s.plen.toNat + n - 1) / n) →
    ∃ u, exec .extract s' = .next u ∧ u.err = ResultCode.ok.code ∧ u.plen = s.plen ∧
      ∀ i, i < s.plen.toNat → u.pay.read i = s.pay.read i) ∧
  (∀ (s s' : State) (k : Kind), kindOf s.kind = some k → k ≠ .edge → SameSelection s s' →
    siteSequence Config.collab k s' = siteSequence Config.collab k s)

/-- Rules R140, R111: for `SEQ` and `PERM` the round trip needs no premise on the site sequences, and it holds for
EVERY lawful pair of collaborators (rule R6), not the machine's alone. -/
def Obligations.RoundTripForEveryCollaborator : Prop :=
  ∀ (C : Collab) (s t s' : State), C.Lawful → s.kind ≠ 1#32 → embedWith C s = .next t →
    t.err = ResultCode.ok.code → SameSelection s s' → s'.totalBits = t.totalBits → SameImage t s' →
    ∃ u, extractWith C s' = .next u ∧ u.err = ResultCode.ok.code ∧ u.plen = s.plen ∧
      ∀ i, i < s.plen.toNat → u.pay.read i = s.pay.read i

/-- Rule R150: two `EMBED`s from equal operand registers, equal payloads and equal images give equal results, equal
final images and equal `TOTAL_BITS`, whatever the buffers, `CAP`, `STATUS` and the other bytes held. -/
def Obligations.EqualImagesInEqualImagesOut : Prop :=
  ∀ s s' t t' : State, SameOperands s s' → (∀ i, i < s.plen.toNat → s'.pay.read i = s.pay.read i) →
    SameImage s s' → exec .embed s = .next t → exec .embed s' = .next t' →
    t'.err = t.err ∧ t'.totalBits = t.totalBits ∧ SameImage t t'

/-- Rule R35, second half: two `EXTRACT`s from the same selection, `TOTAL_BITS` and image give the same result code;
when it is `Ok`, the same `PLEN` and the same payload; when it is not, `PLEN` and `PAY` as each had them. -/
def Obligations.ExtractDependsOnItsOperandsAlone : Prop :=
  ∀ s s' t t' : State, SameSelection s s' → s'.totalBits = s.totalBits → SameImage s s' →
    exec .extract s = .next t → exec .extract s' = .next t' →
    t'.err = t.err ∧
    (t.err = ResultCode.ok.code → t'.plen = t.plen ∧ ∀ i, i < t.plen.toNat → t'.pay.read i = t.pay.read i) ∧
    (t.err ≠ ResultCode.ok.code → t.plen = s.plen ∧ t.pay = s.pay ∧ t'.plen = s'.plen ∧ t'.pay = s'.pay)

/-- Rule R146: an `EMBED` that completes `Ok` leaves `BS`, `ST` and `CAP` as `PACK; ORDER; VALIDATE` would, all three
completing `Ok`. When `KIND` is `PERM` or `NBITS` is 1 a following `CHUNK` completes `Ok` too, and the `EMBED` is exactly
its state after steps 5 and 6: the image writes and `TOTAL_BITS`. When `KIND` is not `PERM`, whatever `NBITS` holds, the
symbols are those of a `CHUNK` at width 1. -/
def Obligations.EmbedIsThePrimitivesThenTheWrites : Prop :=
  ∀ (s t : State) (n : Nat), exec .embed s = .next t → t.err = ResultCode.ok.code → EffectiveWidth s n →
    ∃ a b c : State, exec .pack s = .next a ∧ a.err = ResultCode.ok.code ∧
      exec .order a = .next b ∧ b.err = ResultCode.ok.code ∧
      exec .validate b = .next c ∧ c.err = ResultCode.ok.code ∧
      t.bs = c.bs ∧ t.st = c.st ∧ t.cap = c.cap ∧
      ((s.kind = 2#32 ∨ s.nbits = 1#32) → ∃ d, exec .chunk c = .next d ∧ d.err = ResultCode.ok.code ∧
        t = { d with img := writeSymbols n d.img (d.st.zip d.sym), totalBits := d.blen }.record 0x10#8 .ok) ∧
      (s.kind ≠ 2#32 → ∃ d, exec .chunk { c with nbits := 1#32 } = .next d ∧ t.sym = d.sym)

/-- Rule R147: under the same condition an `EXTRACT` that completes `Ok` leaves `ST`, `BS`, `PAY` and `PLEN` as
`ORDER`, then the symbol read of step 2, then `UNCHUNK; UNPACK` would. -/
def Obligations.ExtractIsThePrimitivesAroundTheReads : Prop :=
  ∀ (s t : State) (n : Nat), exec .extract s = .next t → t.err = ResultCode.ok.code → EffectiveWidth s n →
    s.kind = 2#32 ∨ s.nbits = 1#32 →
    ∃ a b c : State, exec .order s = .next a ∧ a.err = ResultCode.ok.code ∧
      exec .unchunk (a.setSym ((a.st.take ((s.totalBits.toNat + n - 1) / n)).map
        (fun e => sampleRead n (a.img.read e.toNat)))) = .next b ∧ b.err = ResultCode.ok.code ∧
      exec .unpack b = .next c ∧ c.err = ResultCode.ok.code ∧
      t.st = c.st ∧ t.bs = c.bs ∧ t.pay = c.pay ∧ t.plen = c.plen

/-- Rule R144: with the permuted selector, the same shape, `NBITS` and `TOTAL_BITS` as an `EMBED` that completed `Ok`
but any other seed and any other image, `EXTRACT` completes `Ok`, never with `InsufficientSites`. -/
def Obligations.WrongKeyStillCompletes : Prop :=
  ∀ s t s' : State, s.kind = 2#32 → exec .embed s = .next t → t.err = ResultCode.ok.code →
    s'.kind = 2#32 → s'.height = s.height → s'.width = s.width → s'.nbits = s.nbits →
    s'.totalBits = t.totalBits →
    ∃ u, exec .extract s' = .next u ∧ u.err = ResultCode.ok.code ∧ u.plen = s.plen

/-- Rule R143: of the eight commands only `EMBED` writes `IMG`. -/
def Obligations.OnlyEmbedWritesTheImage : Prop :=
  ∀ (i : Instr) (s t : State), i ≠ .embed → exec i s = .next t → t.img = s.img

/-! ### The whole machine -/

/-- Rule R167: `BadOperand` is raised exactly for the causes the table lists, and then everything but `STATUS` (and
the result returned) is as before the command. -/
def Obligations.BadOperandExactlyForTheListedCauses : Prop :=
  ∀ (i : Instr) (s : State),
    (BadOperandCause s i → exec i s = .next (s.record (encode i) .badOperand)) ∧
    (¬ BadOperandCause s i → ∃ t, exec i s = .next t ∧ t.err ≠ ResultCode.badOperand.code)

/-- The register summary of `10_state.md` and the Writes column of rule R62: which command may write which register,
buffer and memory; the configuration registers none. -/
def Obligations.CommandsWriteOnlyWhatTheyOwn : Prop :=
  ∀ (i : Instr) (s t : State), exec i s = .next t →
    t.kind = s.kind ∧ t.nbits = s.nbits ∧ t.height = s.height ∧ t.width = s.width ∧ t.seed = s.seed ∧
    t.lowThr = s.lowThr ∧ t.highThr = s.highThr ∧ t.inbox = s.inbox ∧ t.freeCount = s.freeCount ∧
    (i ≠ .embed → t.totalBits = s.totalBits ∧ t.img = s.img) ∧
    (i ≠ .unpack → i ≠ .extract → t.plen = s.plen ∧ t.pay = s.pay) ∧
    (i ≠ .validate → i ≠ .embed → t.cap = s.cap) ∧
    (i ≠ .pack → i ≠ .unchunk → i ≠ .embed → i ≠ .extract → t.bs = s.bs) ∧
    (i ≠ .chunk → i ≠ .embed → i ≠ .extract → t.sym = s.sym) ∧
    (i ≠ .order → i ≠ .embed → i ≠ .extract → t.st = s.st)

/-- The invariant holds right after reset. -/
def Obligations.ResetStateMeetsTheInvariant : Prop := Inv State.reset

/-- Rules R21 to R24, R28 to R31, R56: every step keeps the invariant: the reserved fields of `STATUS` stay 0 and its
code one of six, the length registers and `CAP` stay in their ranges, `ST` stays a list of distinct addresses of
`IMG`, and both memories stay canonical and within their address spaces. -/
def Obligations.EveryStepKeepsTheInvariant : Prop :=
  ∀ s t : State, Inv s → step s = .next t → Inv t
end

