-- ==== Sys2Proof/Laws/BitPacker.lean ====
section
/-!
SUPPORT. The bit packer's functions, item by item: lengths, the item at a position, and the bits of a group's value.
-/

namespace Sys2Proof.Machine

theorem bitsToNat_append (bits : List Bool) (b : Bool) :
    bitsToNat (bits ++ [b]) = 2 * bitsToNat bits + b.toNat := by
  simp [bitsToNat]

/-- A string of bits spells a number below `2 ^ length`. -/
theorem bitsToNat_lt (bits : List Bool) : bitsToNat bits < 2 ^ bits.length := by
  induction bits using List.reverseRecOn with
  | nil => simp [bitsToNat]
  | append_singleton bits b ih =>
    have hb : b.toNat ≤ 1 := Bool.toNat_le b
    rw [bitsToNat_append, List.length_append, List.length_singleton, Nat.pow_succ]
    omega

/-- Bit `i` of the number a string spells is its item `i` counted from the end. -/
theorem bitsToNat_testBit (bits : List Bool) (i : Nat) (h : i < bits.length) :
    (bitsToNat bits).testBit i = bits[bits.length - 1 - i]'(by omega) := by
  induction bits using List.reverseRecOn generalizing i with
  | nil => simp at h
  | append_singleton bits b ih =>
    rw [bitsToNat_append]
    cases i with
    | zero =>
      rw [Nat.testBit_zero]
      cases b <;> simp
    | succ i =>
      simp only [List.length_append, List.length_singleton] at h
      have hi : i < bits.length := by omega
      have e : (2 * bitsToNat bits + b.toNat) / 2 = bitsToNat bits := by
        have hb : b.toNat ≤ 1 := Bool.toNat_le b
        omega
      have hpos : (bits ++ [b]).length - 1 - (i + 1) = bits.length - 1 - i := by
        simp only [List.length_append, List.length_singleton]; omega
      rw [Nat.testBit_succ, e, ih i hi]
      simp only [hpos]
      rw [List.getElem_append_left]

@[simp] theorem length_packBits (bytes : List Byte) : (packBits bytes).length = 8 * bytes.length := by
  simp [packBits]

theorem getElem_packBits (bytes : List Byte) (t : Nat) (h : t < (packBits bytes).length) :
    (packBits bytes)[t] = (bytes.getD (t / 8) 0#8).getLsbD (7 - t % 8) := by
  simp [packBits]

@[simp] theorem length_chunkBits (bits : List Bool) (n : Nat) :
    (chunkBits bits n).length = ceilDiv bits.length n := by
  simp [chunkBits]

theorem getElem_chunkBits (bits : List Bool) (n k : Nat) (h : k < (chunkBits bits n).length) :
    (chunkBits bits n)[k] = groupValue bits n k := by
  simp [chunkBits]

@[simp] theorem length_unchunkBits (symbols : List Byte) (n t : Nat) : (unchunkBits symbols n t).length = t := by
  simp [unchunkBits]

theorem getElem_unchunkBits (symbols : List Byte) (n t i : Nat) (h : i < (unchunkBits symbols n t).length) :
    (unchunkBits symbols n t)[i] = (symbols.getD (i / n) 0#8).getLsbD (n - 1 - i % n) := by
  simp [unchunkBits]

@[simp] theorem length_unpackBits (bits : List Bool) : (unpackBits bits).length = bits.length / 8 := by
  simp [unpackBits]

theorem getElem_unpackBits (bits : List Bool) (i : Nat) (h : i < (unpackBits bits).length) :
    (unpackBits bits)[i] = groupValue bits 8 i := by
  simp [unpackBits]

/-- A group of `n` bits is below `2 ^ n`. -/
theorem groupValue_lt (bits : List Bool) {n : Nat} (hn : n ≤ 8) (k : Nat) :
    (groupValue bits n k).toNat < 2 ^ n := by
  have h := bitsToNat_lt ((List.range n).map fun j => bitAt bits (k * n + j))
  rw [List.length_map, List.length_range] at h
  have h8 : (2 : Nat) ^ n ≤ 2 ^ Config.sampleW := Nat.pow_le_pow_right (by decide) hn
  rw [groupValue, BitVec.toNat_ofNat, Nat.mod_eq_of_lt (lt_of_lt_of_le h h8)]
  exact h

/-- The first bit of a group is the most significant bit of its value. -/
theorem groupValue_bit (bits : List Bool) {n : Nat} (hn : n ≤ 8) (k j : Nat) (hj : j < n) :
    (groupValue bits n k).getLsbD (n - 1 - j) = bitAt bits (k * n + j) := by
  have hl : ((List.range n).map fun j => bitAt bits (k * n + j)).length = n := by simp
  rw [groupValue, BitVec.getLsbD_ofNat, bitsToNat_testBit _ _ (by rw [hl]; omega)]
  have e : n - 1 - (n - 1 - j) = j := by omega
  have h8 : n - 1 - j < 8 := by omega
  simp [h8, e]

/-- The positions of the groups of a bit sequence. -/
theorem lt_ceilDiv {a n k : Nat} (hn : 1 ≤ n) (h : k < a) : k / n < ceilDiv a n := by
  unfold ceilDiv
  have h1 : k / n + 1 = (k + n) / n := (Nat.add_div_right k (by omega)).symm
  have h2 : (k + n) / n ≤ (a + n - 1) / n := Nat.div_le_div_right (by omega)
  omega

theorem ceilDiv_le {a n c : Nat} (hn : 1 ≤ n) (h : a ≤ c * n) : ceilDiv a n ≤ c := by
  unfold ceilDiv
  have h1 : a + n - 1 < (c + 1) * n := by rw [Nat.succ_mul]; omega
  have h2 := (Nat.div_lt_iff_lt_mul (by omega : 0 < n)).2 h1
  omega

theorem le_ceilDiv_mul (a : Nat) {n : Nat} (hn : 1 ≤ n) : a ≤ ceilDiv a n * n := by
  unfold ceilDiv
  have h1 := Nat.div_add_mod (a + n - 1) n
  have h2 := Nat.mod_lt (a + n - 1) (by omega : n > 0)
  rw [Nat.mul_comm] at h1
  omega

theorem ceilDiv_le_self (a : Nat) {n : Nat} (hn : 1 ≤ n) : ceilDiv a n ≤ a :=
  ceilDiv_le hn (Nat.le_mul_of_pos_right a (by omega))

/-- Items of a bit sequence past its end read as 0. -/
theorem bitAt_of_lt {bits : List Bool} {i : Nat} (h : i < bits.length) : bitAt bits i = bits[i] := by
  simp [bitAt, h]

end Sys2Proof.Machine
end

