-- ==== Sys2Proof/Laws/Parameters.lean ====
section
/-!
SUPPORT. The bounds of the two word types with `XLEN` and `SAMPLE_W` at their values, in the form linear arithmetic
reads.
-/

namespace Sys2Proof

theorem Config.two_pow_xlen : 2 ^ Config.xlen = 4294967296 := rfl

theorem Config.two_pow_sampleW : 2 ^ Config.sampleW = 256 := rfl

theorem Word.toNat_lt (v : Word) : v.toNat < 4294967296 := v.isLt

theorem Byte.toNat_lt (v : Byte) : v.toNat < 256 := v.isLt

end Sys2Proof
end

