-- ==== Sys2Proof/Laws/State.lean ====
section
/-!
SUPPORT. One lemma per field per state update of `Machine/Ops.lean`, each true by `rfl`, so that no later proof unfolds
a record update.
-/

namespace Sys2Proof.Machine

section
variable (s : State)

@[simp] theorem State.setBs_kind (b : List Bool) : (s.setBs b).kind = s.kind := rfl
@[simp] theorem State.setBs_nbits (b : List Bool) : (s.setBs b).nbits = s.nbits := rfl
@[simp] theorem State.setBs_height (b : List Bool) : (s.setBs b).height = s.height := rfl
@[simp] theorem State.setBs_width (b : List Bool) : (s.setBs b).width = s.width := rfl
@[simp] theorem State.setBs_totalBits (b : List Bool) : (s.setBs b).totalBits = s.totalBits := rfl
@[simp] theorem State.setBs_plen (b : List Bool) : (s.setBs b).plen = s.plen := rfl
@[simp] theorem State.setBs_seed (b : List Bool) : (s.setBs b).seed = s.seed := rfl
@[simp] theorem State.setBs_lowThr (b : List Bool) : (s.setBs b).lowThr = s.lowThr := rfl
@[simp] theorem State.setBs_highThr (b : List Bool) : (s.setBs b).highThr = s.highThr := rfl
@[simp] theorem State.setBs_status (b : List Bool) : (s.setBs b).status = s.status := rfl
@[simp] theorem State.setBs_cap (b : List Bool) : (s.setBs b).cap = s.cap := rfl
@[simp] theorem State.setBs_bs (b : List Bool) : (s.setBs b).bs = b := rfl
@[simp] theorem State.setBs_sym (b : List Bool) : (s.setBs b).sym = s.sym := rfl
@[simp] theorem State.setBs_st (b : List Bool) : (s.setBs b).st = s.st := rfl
@[simp] theorem State.setBs_pay (b : List Bool) : (s.setBs b).pay = s.pay := rfl
@[simp] theorem State.setBs_img (b : List Bool) : (s.setBs b).img = s.img := rfl
@[simp] theorem State.setBs_inbox (b : List Bool) : (s.setBs b).inbox = s.inbox := rfl
@[simp] theorem State.setBs_reply (b : List Bool) : (s.setBs b).reply = s.reply := rfl
@[simp] theorem State.setBs_freeCount (b : List Bool) : (s.setBs b).freeCount = s.freeCount := rfl

@[simp] theorem State.setSym_kind (y : List Byte) : (s.setSym y).kind = s.kind := rfl
@[simp] theorem State.setSym_nbits (y : List Byte) : (s.setSym y).nbits = s.nbits := rfl
@[simp] theorem State.setSym_height (y : List Byte) : (s.setSym y).height = s.height := rfl
@[simp] theorem State.setSym_width (y : List Byte) : (s.setSym y).width = s.width := rfl
@[simp] theorem State.setSym_totalBits (y : List Byte) : (s.setSym y).totalBits = s.totalBits := rfl
@[simp] theorem State.setSym_plen (y : List Byte) : (s.setSym y).plen = s.plen := rfl
@[simp] theorem State.setSym_seed (y : List Byte) : (s.setSym y).seed = s.seed := rfl
@[simp] theorem State.setSym_lowThr (y : List Byte) : (s.setSym y).lowThr = s.lowThr := rfl
@[simp] theorem State.setSym_highThr (y : List Byte) : (s.setSym y).highThr = s.highThr := rfl
@[simp] theorem State.setSym_status (y : List Byte) : (s.setSym y).status = s.status := rfl
@[simp] theorem State.setSym_cap (y : List Byte) : (s.setSym y).cap = s.cap := rfl
@[simp] theorem State.setSym_bs (y : List Byte) : (s.setSym y).bs = s.bs := rfl
@[simp] theorem State.setSym_sym (y : List Byte) : (s.setSym y).sym = y := rfl
@[simp] theorem State.setSym_st (y : List Byte) : (s.setSym y).st = s.st := rfl
@[simp] theorem State.setSym_pay (y : List Byte) : (s.setSym y).pay = s.pay := rfl
@[simp] theorem State.setSym_img (y : List Byte) : (s.setSym y).img = s.img := rfl
@[simp] theorem State.setSym_inbox (y : List Byte) : (s.setSym y).inbox = s.inbox := rfl
@[simp] theorem State.setSym_reply (y : List Byte) : (s.setSym y).reply = s.reply := rfl
@[simp] theorem State.setSym_freeCount (y : List Byte) : (s.setSym y).freeCount = s.freeCount := rfl

@[simp] theorem State.setSt_kind (t : List Nat) : (s.setSt t).kind = s.kind := rfl
@[simp] theorem State.setSt_nbits (t : List Nat) : (s.setSt t).nbits = s.nbits := rfl
@[simp] theorem State.setSt_height (t : List Nat) : (s.setSt t).height = s.height := rfl
@[simp] theorem State.setSt_width (t : List Nat) : (s.setSt t).width = s.width := rfl
@[simp] theorem State.setSt_totalBits (t : List Nat) : (s.setSt t).totalBits = s.totalBits := rfl
@[simp] theorem State.setSt_plen (t : List Nat) : (s.setSt t).plen = s.plen := rfl
@[simp] theorem State.setSt_seed (t : List Nat) : (s.setSt t).seed = s.seed := rfl
@[simp] theorem State.setSt_lowThr (t : List Nat) : (s.setSt t).lowThr = s.lowThr := rfl
@[simp] theorem State.setSt_highThr (t : List Nat) : (s.setSt t).highThr = s.highThr := rfl
@[simp] theorem State.setSt_status (t : List Nat) : (s.setSt t).status = s.status := rfl
@[simp] theorem State.setSt_cap (t : List Nat) : (s.setSt t).cap = s.cap := rfl
@[simp] theorem State.setSt_bs (t : List Nat) : (s.setSt t).bs = s.bs := rfl
@[simp] theorem State.setSt_sym (t : List Nat) : (s.setSt t).sym = s.sym := rfl
@[simp] theorem State.setSt_st (t : List Nat) : (s.setSt t).st = t.map (BitVec.ofNat Config.xlen) := rfl
@[simp] theorem State.setSt_pay (t : List Nat) : (s.setSt t).pay = s.pay := rfl
@[simp] theorem State.setSt_img (t : List Nat) : (s.setSt t).img = s.img := rfl
@[simp] theorem State.setSt_inbox (t : List Nat) : (s.setSt t).inbox = s.inbox := rfl
@[simp] theorem State.setSt_reply (t : List Nat) : (s.setSt t).reply = s.reply := rfl
@[simp] theorem State.setSt_freeCount (t : List Nat) : (s.setSt t).freeCount = s.freeCount := rfl

@[simp] theorem State.setCap_kind (c : Nat) : (s.setCap c).kind = s.kind := rfl
@[simp] theorem State.setCap_nbits (c : Nat) : (s.setCap c).nbits = s.nbits := rfl
@[simp] theorem State.setCap_height (c : Nat) : (s.setCap c).height = s.height := rfl
@[simp] theorem State.setCap_width (c : Nat) : (s.setCap c).width = s.width := rfl
@[simp] theorem State.setCap_totalBits (c : Nat) : (s.setCap c).totalBits = s.totalBits := rfl
@[simp] theorem State.setCap_plen (c : Nat) : (s.setCap c).plen = s.plen := rfl
@[simp] theorem State.setCap_seed (c : Nat) : (s.setCap c).seed = s.seed := rfl
@[simp] theorem State.setCap_lowThr (c : Nat) : (s.setCap c).lowThr = s.lowThr := rfl
@[simp] theorem State.setCap_highThr (c : Nat) : (s.setCap c).highThr = s.highThr := rfl
@[simp] theorem State.setCap_status (c : Nat) : (s.setCap c).status = s.status := rfl
@[simp] theorem State.setCap_cap (c : Nat) : (s.setCap c).cap = BitVec.ofNat Config.xlen c := rfl
@[simp] theorem State.setCap_bs (c : Nat) : (s.setCap c).bs = s.bs := rfl
@[simp] theorem State.setCap_sym (c : Nat) : (s.setCap c).sym = s.sym := rfl
@[simp] theorem State.setCap_st (c : Nat) : (s.setCap c).st = s.st := rfl
@[simp] theorem State.setCap_pay (c : Nat) : (s.setCap c).pay = s.pay := rfl
@[simp] theorem State.setCap_img (c : Nat) : (s.setCap c).img = s.img := rfl
@[simp] theorem State.setCap_inbox (c : Nat) : (s.setCap c).inbox = s.inbox := rfl
@[simp] theorem State.setCap_reply (c : Nat) : (s.setCap c).reply = s.reply := rfl
@[simp] theorem State.setCap_freeCount (c : Nat) : (s.setCap c).freeCount = s.freeCount := rfl

@[simp] theorem State.setTotalBits_kind (n : Nat) : (s.setTotalBits n).kind = s.kind := rfl
@[simp] theorem State.setTotalBits_nbits (n : Nat) : (s.setTotalBits n).nbits = s.nbits := rfl
@[simp] theorem State.setTotalBits_height (n : Nat) : (s.setTotalBits n).height = s.height := rfl
@[simp] theorem State.setTotalBits_width (n : Nat) : (s.setTotalBits n).width = s.width := rfl
@[simp] theorem State.setTotalBits_totalBits (n : Nat) : (s.setTotalBits n).totalBits = BitVec.ofNat Config.xlen n := rfl
@[simp] theorem State.setTotalBits_plen (n : Nat) : (s.setTotalBits n).plen = s.plen := rfl
@[simp] theorem State.setTotalBits_seed (n : Nat) : (s.setTotalBits n).seed = s.seed := rfl
@[simp] theorem State.setTotalBits_lowThr (n : Nat) : (s.setTotalBits n).lowThr = s.lowThr := rfl
@[simp] theorem State.setTotalBits_highThr (n : Nat) : (s.setTotalBits n).highThr = s.highThr := rfl
@[simp] theorem State.setTotalBits_status (n : Nat) : (s.setTotalBits n).status = s.status := rfl
@[simp] theorem State.setTotalBits_cap (n : Nat) : (s.setTotalBits n).cap = s.cap := rfl
@[simp] theorem State.setTotalBits_bs (n : Nat) : (s.setTotalBits n).bs = s.bs := rfl
@[simp] theorem State.setTotalBits_sym (n : Nat) : (s.setTotalBits n).sym = s.sym := rfl
@[simp] theorem State.setTotalBits_st (n : Nat) : (s.setTotalBits n).st = s.st := rfl
@[simp] theorem State.setTotalBits_pay (n : Nat) : (s.setTotalBits n).pay = s.pay := rfl
@[simp] theorem State.setTotalBits_img (n : Nat) : (s.setTotalBits n).img = s.img := rfl
@[simp] theorem State.setTotalBits_inbox (n : Nat) : (s.setTotalBits n).inbox = s.inbox := rfl
@[simp] theorem State.setTotalBits_reply (n : Nat) : (s.setTotalBits n).reply = s.reply := rfl
@[simp] theorem State.setTotalBits_freeCount (n : Nat) : (s.setTotalBits n).freeCount = s.freeCount := rfl

@[simp] theorem State.setPlen_kind (l : Nat) : (s.setPlen l).kind = s.kind := rfl
@[simp] theorem State.setPlen_nbits (l : Nat) : (s.setPlen l).nbits = s.nbits := rfl
@[simp] theorem State.setPlen_height (l : Nat) : (s.setPlen l).height = s.height := rfl
@[simp] theorem State.setPlen_width (l : Nat) : (s.setPlen l).width = s.width := rfl
@[simp] theorem State.setPlen_totalBits (l : Nat) : (s.setPlen l).totalBits = s.totalBits := rfl
@[simp] theorem State.setPlen_plen (l : Nat) : (s.setPlen l).plen = BitVec.ofNat Config.xlen l := rfl
@[simp] theorem State.setPlen_seed (l : Nat) : (s.setPlen l).seed = s.seed := rfl
@[simp] theorem State.setPlen_lowThr (l : Nat) : (s.setPlen l).lowThr = s.lowThr := rfl
@[simp] theorem State.setPlen_highThr (l : Nat) : (s.setPlen l).highThr = s.highThr := rfl
@[simp] theorem State.setPlen_status (l : Nat) : (s.setPlen l).status = s.status := rfl
@[simp] theorem State.setPlen_cap (l : Nat) : (s.setPlen l).cap = s.cap := rfl
@[simp] theorem State.setPlen_bs (l : Nat) : (s.setPlen l).bs = s.bs := rfl
@[simp] theorem State.setPlen_sym (l : Nat) : (s.setPlen l).sym = s.sym := rfl
@[simp] theorem State.setPlen_st (l : Nat) : (s.setPlen l).st = s.st := rfl
@[simp] theorem State.setPlen_pay (l : Nat) : (s.setPlen l).pay = s.pay := rfl
@[simp] theorem State.setPlen_img (l : Nat) : (s.setPlen l).img = s.img := rfl
@[simp] theorem State.setPlen_inbox (l : Nat) : (s.setPlen l).inbox = s.inbox := rfl
@[simp] theorem State.setPlen_reply (l : Nat) : (s.setPlen l).reply = s.reply := rfl
@[simp] theorem State.setPlen_freeCount (l : Nat) : (s.setPlen l).freeCount = s.freeCount := rfl

@[simp] theorem State.setPay_kind (m : Memory) : (s.setPay m).kind = s.kind := rfl
@[simp] theorem State.setPay_nbits (m : Memory) : (s.setPay m).nbits = s.nbits := rfl
@[simp] theorem State.setPay_height (m : Memory) : (s.setPay m).height = s.height := rfl
@[simp] theorem State.setPay_width (m : Memory) : (s.setPay m).width = s.width := rfl
@[simp] theorem State.setPay_totalBits (m : Memory) : (s.setPay m).totalBits = s.totalBits := rfl
@[simp] theorem State.setPay_plen (m : Memory) : (s.setPay m).plen = s.plen := rfl
@[simp] theorem State.setPay_seed (m : Memory) : (s.setPay m).seed = s.seed := rfl
@[simp] theorem State.setPay_lowThr (m : Memory) : (s.setPay m).lowThr = s.lowThr := rfl
@[simp] theorem State.setPay_highThr (m : Memory) : (s.setPay m).highThr = s.highThr := rfl
@[simp] theorem State.setPay_status (m : Memory) : (s.setPay m).status = s.status := rfl
@[simp] theorem State.setPay_cap (m : Memory) : (s.setPay m).cap = s.cap := rfl
@[simp] theorem State.setPay_bs (m : Memory) : (s.setPay m).bs = s.bs := rfl
@[simp] theorem State.setPay_sym (m : Memory) : (s.setPay m).sym = s.sym := rfl
@[simp] theorem State.setPay_st (m : Memory) : (s.setPay m).st = s.st := rfl
@[simp] theorem State.setPay_pay (m : Memory) : (s.setPay m).pay = m := rfl
@[simp] theorem State.setPay_img (m : Memory) : (s.setPay m).img = s.img := rfl
@[simp] theorem State.setPay_inbox (m : Memory) : (s.setPay m).inbox = s.inbox := rfl
@[simp] theorem State.setPay_reply (m : Memory) : (s.setPay m).reply = s.reply := rfl
@[simp] theorem State.setPay_freeCount (m : Memory) : (s.setPay m).freeCount = s.freeCount := rfl

@[simp] theorem State.setImg_kind (m : Memory) : (s.setImg m).kind = s.kind := rfl
@[simp] theorem State.setImg_nbits (m : Memory) : (s.setImg m).nbits = s.nbits := rfl
@[simp] theorem State.setImg_height (m : Memory) : (s.setImg m).height = s.height := rfl
@[simp] theorem State.setImg_width (m : Memory) : (s.setImg m).width = s.width := rfl
@[simp] theorem State.setImg_totalBits (m : Memory) : (s.setImg m).totalBits = s.totalBits := rfl
@[simp] theorem State.setImg_plen (m : Memory) : (s.setImg m).plen = s.plen := rfl
@[simp] theorem State.setImg_seed (m : Memory) : (s.setImg m).seed = s.seed := rfl
@[simp] theorem State.setImg_lowThr (m : Memory) : (s.setImg m).lowThr = s.lowThr := rfl
@[simp] theorem State.setImg_highThr (m : Memory) : (s.setImg m).highThr = s.highThr := rfl
@[simp] theorem State.setImg_status (m : Memory) : (s.setImg m).status = s.status := rfl
@[simp] theorem State.setImg_cap (m : Memory) : (s.setImg m).cap = s.cap := rfl
@[simp] theorem State.setImg_bs (m : Memory) : (s.setImg m).bs = s.bs := rfl
@[simp] theorem State.setImg_sym (m : Memory) : (s.setImg m).sym = s.sym := rfl
@[simp] theorem State.setImg_st (m : Memory) : (s.setImg m).st = s.st := rfl
@[simp] theorem State.setImg_pay (m : Memory) : (s.setImg m).pay = s.pay := rfl
@[simp] theorem State.setImg_img (m : Memory) : (s.setImg m).img = m := rfl
@[simp] theorem State.setImg_inbox (m : Memory) : (s.setImg m).inbox = s.inbox := rfl
@[simp] theorem State.setImg_reply (m : Memory) : (s.setImg m).reply = s.reply := rfl
@[simp] theorem State.setImg_freeCount (m : Memory) : (s.setImg m).freeCount = s.freeCount := rfl

@[simp] theorem State.record_kind (w : Byte) (c : ResultCode) : (s.record w c).kind = s.kind := rfl
@[simp] theorem State.record_nbits (w : Byte) (c : ResultCode) : (s.record w c).nbits = s.nbits := rfl
@[simp] theorem State.record_height (w : Byte) (c : ResultCode) : (s.record w c).height = s.height := rfl
@[simp] theorem State.record_width (w : Byte) (c : ResultCode) : (s.record w c).width = s.width := rfl
@[simp] theorem State.record_totalBits (w : Byte) (c : ResultCode) : (s.record w c).totalBits = s.totalBits := rfl
@[simp] theorem State.record_plen (w : Byte) (c : ResultCode) : (s.record w c).plen = s.plen := rfl
@[simp] theorem State.record_seed (w : Byte) (c : ResultCode) : (s.record w c).seed = s.seed := rfl
@[simp] theorem State.record_lowThr (w : Byte) (c : ResultCode) : (s.record w c).lowThr = s.lowThr := rfl
@[simp] theorem State.record_highThr (w : Byte) (c : ResultCode) : (s.record w c).highThr = s.highThr := rfl
@[simp] theorem State.record_status (w : Byte) (c : ResultCode) : (s.record w c).status = statusWord c w := rfl
@[simp] theorem State.record_cap (w : Byte) (c : ResultCode) : (s.record w c).cap = s.cap := rfl
@[simp] theorem State.record_bs (w : Byte) (c : ResultCode) : (s.record w c).bs = s.bs := rfl
@[simp] theorem State.record_sym (w : Byte) (c : ResultCode) : (s.record w c).sym = s.sym := rfl
@[simp] theorem State.record_st (w : Byte) (c : ResultCode) : (s.record w c).st = s.st := rfl
@[simp] theorem State.record_pay (w : Byte) (c : ResultCode) : (s.record w c).pay = s.pay := rfl
@[simp] theorem State.record_img (w : Byte) (c : ResultCode) : (s.record w c).img = s.img := rfl
@[simp] theorem State.record_inbox (w : Byte) (c : ResultCode) : (s.record w c).inbox = s.inbox := rfl
@[simp] theorem State.record_reply (w : Byte) (c : ResultCode) : (s.record w c).reply = some (.result c) := rfl
@[simp] theorem State.record_freeCount (w : Byte) (c : ResultCode) : (s.record w c).freeCount = s.freeCount := rfl

end

end Sys2Proof.Machine
end

