-- ==== Sys2Proof/Laws/Compound.lean ====
section
/-!
SUPPORT. One lemma per field for each compound update the commands share (`packPayload`, `storePayload`, `loadSites`,
`embedPrepare`, `embedWrite`, `extractBits`), so that no later proof unfolds one.
-/

namespace Sys2Proof.Machine

section
variable (s : State)

/-- The site sequence depends on no buffer. -/
@[simp] theorem siteSequence_packPayload (C : Collab) (k : Kind) :
    siteSequence C k s.packPayload = siteSequence C k s := by
  cases k <;> rfl

@[simp] theorem State.packPayload_kind  : (s.packPayload).kind =
    s.kind := rfl
@[simp] theorem State.packPayload_nbits  : (s.packPayload).nbits =
    s.nbits := rfl
@[simp] theorem State.packPayload_height  : (s.packPayload).height =
    s.height := rfl
@[simp] theorem State.packPayload_width  : (s.packPayload).width =
    s.width := rfl
@[simp] theorem State.packPayload_totalBits  : (s.packPayload).totalBits =
    s.totalBits := rfl
@[simp] theorem State.packPayload_plen  : (s.packPayload).plen =
    s.plen := rfl
@[simp] theorem State.packPayload_seed  : (s.packPayload).seed =
    s.seed := rfl
@[simp] theorem State.packPayload_lowThr  : (s.packPayload).lowThr =
    s.lowThr := rfl
@[simp] theorem State.packPayload_highThr  : (s.packPayload).highThr =
    s.highThr := rfl
@[simp] theorem State.packPayload_status  : (s.packPayload).status =
    s.status := rfl
@[simp] theorem State.packPayload_cap  : (s.packPayload).cap =
    s.cap := rfl
@[simp] theorem State.packPayload_bs  : (s.packPayload).bs =
    packBits s.payload := rfl
@[simp] theorem State.packPayload_sym  : (s.packPayload).sym =
    s.sym := rfl
@[simp] theorem State.packPayload_st  : (s.packPayload).st =
    s.st := rfl
@[simp] theorem State.packPayload_pay  : (s.packPayload).pay =
    s.pay := rfl
@[simp] theorem State.packPayload_img  : (s.packPayload).img =
    s.img := rfl
@[simp] theorem State.packPayload_inbox  : (s.packPayload).inbox =
    s.inbox := rfl
@[simp] theorem State.packPayload_reply  : (s.packPayload).reply =
    s.reply := rfl
@[simp] theorem State.packPayload_freeCount  : (s.packPayload).freeCount =
    s.freeCount := rfl

@[simp] theorem State.storePayload_kind  : (s.storePayload).kind =
    s.kind := rfl
@[simp] theorem State.storePayload_nbits  : (s.storePayload).nbits =
    s.nbits := rfl
@[simp] theorem State.storePayload_height  : (s.storePayload).height =
    s.height := rfl
@[simp] theorem State.storePayload_width  : (s.storePayload).width =
    s.width := rfl
@[simp] theorem State.storePayload_totalBits  : (s.storePayload).totalBits =
    s.totalBits := rfl
@[simp] theorem State.storePayload_plen  : (s.storePayload).plen =
    BitVec.ofNat Config.xlen (s.bs.length / 8) := rfl
@[simp] theorem State.storePayload_seed  : (s.storePayload).seed =
    s.seed := rfl
@[simp] theorem State.storePayload_lowThr  : (s.storePayload).lowThr =
    s.lowThr := rfl
@[simp] theorem State.storePayload_highThr  : (s.storePayload).highThr =
    s.highThr := rfl
@[simp] theorem State.storePayload_status  : (s.storePayload).status =
    s.status := rfl
@[simp] theorem State.storePayload_cap  : (s.storePayload).cap =
    s.cap := rfl
@[simp] theorem State.storePayload_bs  : (s.storePayload).bs =
    s.bs := rfl
@[simp] theorem State.storePayload_sym  : (s.storePayload).sym =
    s.sym := rfl
@[simp] theorem State.storePayload_st  : (s.storePayload).st =
    s.st := rfl
@[simp] theorem State.storePayload_pay  : (s.storePayload).pay =
    s.pay.writeFrom 0 (unpackBits s.bs) := rfl
@[simp] theorem State.storePayload_img  : (s.storePayload).img =
    s.img := rfl
@[simp] theorem State.storePayload_inbox  : (s.storePayload).inbox =
    s.inbox := rfl
@[simp] theorem State.storePayload_reply  : (s.storePayload).reply =
    s.reply := rfl
@[simp] theorem State.storePayload_freeCount  : (s.storePayload).freeCount =
    s.freeCount := rfl

@[simp] theorem State.loadSites_kind (C : Collab) (k : Kind) : (s.loadSites C k).kind =
    s.kind := rfl
@[simp] theorem State.loadSites_nbits (C : Collab) (k : Kind) : (s.loadSites C k).nbits =
    s.nbits := rfl
@[simp] theorem State.loadSites_height (C : Collab) (k : Kind) : (s.loadSites C k).height =
    s.height := rfl
@[simp] theorem State.loadSites_width (C : Collab) (k : Kind) : (s.loadSites C k).width =
    s.width := rfl
@[simp] theorem State.loadSites_totalBits (C : Collab) (k : Kind) : (s.loadSites C k).totalBits =
    s.totalBits := rfl
@[simp] theorem State.loadSites_plen (C : Collab) (k : Kind) : (s.loadSites C k).plen =
    s.plen := rfl
@[simp] theorem State.loadSites_seed (C : Collab) (k : Kind) : (s.loadSites C k).seed =
    s.seed := rfl
@[simp] theorem State.loadSites_lowThr (C : Collab) (k : Kind) : (s.loadSites C k).lowThr =
    s.lowThr := rfl
@[simp] theorem State.loadSites_highThr (C : Collab) (k : Kind) : (s.loadSites C k).highThr =
    s.highThr := rfl
@[simp] theorem State.loadSites_status (C : Collab) (k : Kind) : (s.loadSites C k).status =
    s.status := rfl
@[simp] theorem State.loadSites_cap (C : Collab) (k : Kind) : (s.loadSites C k).cap =
    s.cap := rfl
@[simp] theorem State.loadSites_bs (C : Collab) (k : Kind) : (s.loadSites C k).bs =
    s.bs := rfl
@[simp] theorem State.loadSites_sym (C : Collab) (k : Kind) : (s.loadSites C k).sym =
    s.sym := rfl
@[simp] theorem State.loadSites_st (C : Collab) (k : Kind) : (s.loadSites C k).st =
    (siteSequence C k s).map (BitVec.ofNat Config.xlen) := rfl
@[simp] theorem State.loadSites_pay (C : Collab) (k : Kind) : (s.loadSites C k).pay =
    s.pay := rfl
@[simp] theorem State.loadSites_img (C : Collab) (k : Kind) : (s.loadSites C k).img =
    s.img := rfl
@[simp] theorem State.loadSites_inbox (C : Collab) (k : Kind) : (s.loadSites C k).inbox =
    s.inbox := rfl
@[simp] theorem State.loadSites_reply (C : Collab) (k : Kind) : (s.loadSites C k).reply =
    s.reply := rfl
@[simp] theorem State.loadSites_freeCount (C : Collab) (k : Kind) : (s.loadSites C k).freeCount =
    s.freeCount := rfl

@[simp] theorem State.embedPrepare_kind (C : Collab) (k : Kind) (n : Nat) : (s.embedPrepare C k n).kind =
    s.kind := rfl
@[simp] theorem State.embedPrepare_nbits (C : Collab) (k : Kind) (n : Nat) : (s.embedPrepare C k n).nbits =
    s.nbits := rfl
@[simp] theorem State.embedPrepare_height (C : Collab) (k : Kind) (n : Nat) : (s.embedPrepare C k n).height =
    s.height := rfl
@[simp] theorem State.embedPrepare_width (C : Collab) (k : Kind) (n : Nat) : (s.embedPrepare C k n).width =
    s.width := rfl
@[simp] theorem State.embedPrepare_totalBits (C : Collab) (k : Kind) (n : Nat) : (s.embedPrepare C k n).totalBits =
    s.totalBits := rfl
@[simp] theorem State.embedPrepare_plen (C : Collab) (k : Kind) (n : Nat) : (s.embedPrepare C k n).plen =
    s.plen := rfl
@[simp] theorem State.embedPrepare_seed (C : Collab) (k : Kind) (n : Nat) : (s.embedPrepare C k n).seed =
    s.seed := rfl
@[simp] theorem State.embedPrepare_lowThr (C : Collab) (k : Kind) (n : Nat) : (s.embedPrepare C k n).lowThr =
    s.lowThr := rfl
@[simp] theorem State.embedPrepare_highThr (C : Collab) (k : Kind) (n : Nat) : (s.embedPrepare C k n).highThr =
    s.highThr := rfl
@[simp] theorem State.embedPrepare_status (C : Collab) (k : Kind) (n : Nat) : (s.embedPrepare C k n).status =
    s.status := rfl
@[simp] theorem State.embedPrepare_cap (C : Collab) (k : Kind) (n : Nat) : (s.embedPrepare C k n).cap =
    BitVec.ofNat Config.xlen ((siteSequence C k s).length * n) := by
  simp [State.embedPrepare, State.loadSites, State.capacityBits]
@[simp] theorem State.embedPrepare_bs (C : Collab) (k : Kind) (n : Nat) : (s.embedPrepare C k n).bs =
    packBits s.payload := rfl
@[simp] theorem State.embedPrepare_sym (C : Collab) (k : Kind) (n : Nat) : (s.embedPrepare C k n).sym =
    s.sym := rfl
@[simp] theorem State.embedPrepare_st (C : Collab) (k : Kind) (n : Nat) : (s.embedPrepare C k n).st =
    (siteSequence C k s).map (BitVec.ofNat Config.xlen) := by
  simp [State.embedPrepare, State.loadSites, State.capacityBits]
@[simp] theorem State.embedPrepare_pay (C : Collab) (k : Kind) (n : Nat) : (s.embedPrepare C k n).pay =
    s.pay := rfl
@[simp] theorem State.embedPrepare_img (C : Collab) (k : Kind) (n : Nat) : (s.embedPrepare C k n).img =
    s.img := rfl
@[simp] theorem State.embedPrepare_inbox (C : Collab) (k : Kind) (n : Nat) : (s.embedPrepare C k n).inbox =
    s.inbox := rfl
@[simp] theorem State.embedPrepare_reply (C : Collab) (k : Kind) (n : Nat) : (s.embedPrepare C k n).reply =
    s.reply := rfl
@[simp] theorem State.embedPrepare_freeCount (C : Collab) (k : Kind) (n : Nat) : (s.embedPrepare C k n).freeCount =
    s.freeCount := rfl

@[simp] theorem State.embedWrite_kind (n : Nat) : (s.embedWrite n).kind =
    s.kind := rfl
@[simp] theorem State.embedWrite_nbits (n : Nat) : (s.embedWrite n).nbits =
    s.nbits := rfl
@[simp] theorem State.embedWrite_height (n : Nat) : (s.embedWrite n).height =
    s.height := rfl
@[simp] theorem State.embedWrite_width (n : Nat) : (s.embedWrite n).width =
    s.width := rfl
@[simp] theorem State.embedWrite_totalBits (n : Nat) : (s.embedWrite n).totalBits =
    BitVec.ofNat Config.xlen s.bs.length := rfl
@[simp] theorem State.embedWrite_plen (n : Nat) : (s.embedWrite n).plen =
    s.plen := rfl
@[simp] theorem State.embedWrite_seed (n : Nat) : (s.embedWrite n).seed =
    s.seed := rfl
@[simp] theorem State.embedWrite_lowThr (n : Nat) : (s.embedWrite n).lowThr =
    s.lowThr := rfl
@[simp] theorem State.embedWrite_highThr (n : Nat) : (s.embedWrite n).highThr =
    s.highThr := rfl
@[simp] theorem State.embedWrite_status (n : Nat) : (s.embedWrite n).status =
    s.status := rfl
@[simp] theorem State.embedWrite_cap (n : Nat) : (s.embedWrite n).cap =
    s.cap := rfl
@[simp] theorem State.embedWrite_bs (n : Nat) : (s.embedWrite n).bs =
    s.bs := rfl
@[simp] theorem State.embedWrite_sym (n : Nat) : (s.embedWrite n).sym =
    chunkBits s.bs n := rfl
@[simp] theorem State.embedWrite_st (n : Nat) : (s.embedWrite n).st =
    s.st := rfl
@[simp] theorem State.embedWrite_pay (n : Nat) : (s.embedWrite n).pay =
    s.pay := rfl
@[simp] theorem State.embedWrite_img (n : Nat) : (s.embedWrite n).img =
    writeSymbols n s.img (s.st.zip (chunkBits s.bs n)) := rfl
@[simp] theorem State.embedWrite_inbox (n : Nat) : (s.embedWrite n).inbox =
    s.inbox := rfl
@[simp] theorem State.embedWrite_reply (n : Nat) : (s.embedWrite n).reply =
    s.reply := rfl
@[simp] theorem State.embedWrite_freeCount (n : Nat) : (s.embedWrite n).freeCount =
    s.freeCount := rfl

@[simp] theorem State.extractBits_kind (n count : Nat) : (s.extractBits n count).kind =
    s.kind := rfl
@[simp] theorem State.extractBits_nbits (n count : Nat) : (s.extractBits n count).nbits =
    s.nbits := rfl
@[simp] theorem State.extractBits_height (n count : Nat) : (s.extractBits n count).height =
    s.height := rfl
@[simp] theorem State.extractBits_width (n count : Nat) : (s.extractBits n count).width =
    s.width := rfl
@[simp] theorem State.extractBits_totalBits (n count : Nat) : (s.extractBits n count).totalBits =
    s.totalBits := rfl
@[simp] theorem State.extractBits_plen (n count : Nat) : (s.extractBits n count).plen =
    s.plen := rfl
@[simp] theorem State.extractBits_seed (n count : Nat) : (s.extractBits n count).seed =
    s.seed := rfl
@[simp] theorem State.extractBits_lowThr (n count : Nat) : (s.extractBits n count).lowThr =
    s.lowThr := rfl
@[simp] theorem State.extractBits_highThr (n count : Nat) : (s.extractBits n count).highThr =
    s.highThr := rfl
@[simp] theorem State.extractBits_status (n count : Nat) : (s.extractBits n count).status =
    s.status := rfl
@[simp] theorem State.extractBits_cap (n count : Nat) : (s.extractBits n count).cap =
    s.cap := rfl
@[simp] theorem State.extractBits_bs (n count : Nat) : (s.extractBits n count).bs =
    unchunkBits (s.readSymbols n count) n s.totalBits.toNat := rfl
@[simp] theorem State.extractBits_sym (n count : Nat) : (s.extractBits n count).sym =
    s.readSymbols n count := rfl
@[simp] theorem State.extractBits_st (n count : Nat) : (s.extractBits n count).st =
    s.st := rfl
@[simp] theorem State.extractBits_pay (n count : Nat) : (s.extractBits n count).pay =
    s.pay := rfl
@[simp] theorem State.extractBits_img (n count : Nat) : (s.extractBits n count).img =
    s.img := rfl
@[simp] theorem State.extractBits_inbox (n count : Nat) : (s.extractBits n count).inbox =
    s.inbox := rfl
@[simp] theorem State.extractBits_reply (n count : Nat) : (s.extractBits n count).reply =
    s.reply := rfl
@[simp] theorem State.extractBits_freeCount (n count : Nat) : (s.extractBits n count).freeCount =
    s.freeCount := rfl

/-- `EMBED` steps 1 to 3 as one record update. -/
theorem State.embedPrepare_eq (C : Collab) (k : Kind) (n : Nat) :
    s.embedPrepare C k n = { s with
      bs := packBits s.payload
      st := (siteSequence C k s).map (BitVec.ofNat Config.xlen)
      cap := BitVec.ofNat Config.xlen ((siteSequence C k s).length * n) } := by
  simp [State.embedPrepare, State.loadSites, State.setCap, State.setSt, State.packPayload, State.setBs,
    State.capacityBits]
  exact ⟨by rw [← siteSequence_packPayload]; rfl, by rw [← siteSequence_packPayload]; rfl⟩

/-- `EMBED` steps 4 to 6 as one record update. -/
theorem State.embedWrite_eq (n : Nat) :
    s.embedWrite n = { s with
      sym := chunkBits s.bs n
      img := writeSymbols n s.img (s.st.zip (chunkBits s.bs n))
      totalBits := BitVec.ofNat Config.xlen s.bs.length } := rfl

/-- `EXTRACT` step 2 and the unchunking as one record update. -/
theorem State.extractBits_eq (n count : Nat) :
    s.extractBits n count = { s with
      sym := s.readSymbols n count
      bs := unchunkBits (s.readSymbols n count) n s.totalBits.toNat } := rfl

/-- The unpacking of `UNPACK` and `EXTRACT` as one record update. -/
theorem State.storePayload_eq :
    s.storePayload = { s with
      pay := s.pay.writeFrom 0 (unpackBits s.bs)
      plen := BitVec.ofNat Config.xlen (s.bs.length / 8) } := rfl

end

end Sys2Proof.Machine
end

