-- ==== Sys2Proof/Laws/Memory.lean ====
section
/-!
SUPPORT. The memory operations: what a byte reads as after a write (for every list, canonical or not), and that every
operation keeps the canonical form and the extent of a memory.
-/

namespace Sys2Proof.Machine

theorem Memory.read_insert (m : Memory) (a b : Nat) (v : Byte) (h : ∀ c ∈ m, c.1 ≠ a) :
    (Memory.insert a v m).read b = if b = a then v else m.read b := by
  induction m with
  | nil =>
    by_cases e : a = b
    · simp [Memory.insert, Memory.read, e]
    · simp [Memory.insert, Memory.read, e, Ne.symm e]
  | cons c rest ih =>
    obtain ⟨x, w⟩ := c
    have hx : x ≠ a := h (x, w) (by simp)
    have ih := ih (fun c hc => h c (by simp [hc]))
    by_cases hlt : a < x
    · simp only [Memory.insert, hlt, if_true]
      by_cases e : a = b
      · simp [Memory.read, e]
      · simp [Memory.read, e, Ne.symm e]
    · simp only [Memory.insert, hlt, if_false, Memory.read, ih]
      by_cases e : x = b
      · have hb : b ≠ a := by rintro rfl; exact hx e
        simp [e, hb]
      · simp [e]

theorem Memory.read_filter_ne (m : Memory) (a b : Nat) :
    Memory.read (m.filter (fun c => c.1 != a)) b = if b = a then Memory.unwritten else m.read b := by
  induction m with
  | nil => simp [Memory.read]
  | cons c rest ih =>
    obtain ⟨x, w⟩ := c
    by_cases hx : x = a
    · subst hx
      by_cases e : b = x
      · simpa [e] using ih
      · simpa [Memory.read, e, Ne.symm e] using ih
    · by_cases e : x = b
      · subst e; simp [Memory.read, hx]
      · simpa [Memory.read, hx, e] using ih

/-- A write is seen at its own address and nowhere else. -/
theorem Memory.read_write (m : Memory) (a b : Nat) (v : Byte) :
    (m.write a v).read b = if b = a then v else m.read b := by
  unfold Memory.write
  by_cases hv : v = Memory.unwritten
  · simp only [hv, if_true, Memory.read_filter_ne]
  · simp only [hv, if_false]
    rw [Memory.read_insert, Memory.read_filter_ne]
    · by_cases e : b = a <;> simp [e]
    · intro c hc; simpa using (List.mem_filter.1 hc).2

@[simp] theorem Memory.read_write_same (m : Memory) (a : Nat) (v : Byte) : (m.write a v).read a = v := by
  simp [Memory.read_write]

theorem Memory.read_write_other (m : Memory) {a b : Nat} (v : Byte) (h : b ≠ a) :
    (m.write a v).read b = m.read b := by
  simp [Memory.read_write, h]

theorem Memory.mem_insert {m : Memory} {a : Nat} {v : Byte} {c : Host.Cell}
    (h : c ∈ Memory.insert a v m) : c = (a, v) ∨ c ∈ m := by
  induction m with
  | nil => simpa [Memory.insert] using h
  | cons d rest ih =>
    obtain ⟨x, w⟩ := d
    by_cases hlt : a < x
    · simpa [Memory.insert, hlt] using h
    · simp only [Memory.insert, hlt, if_false, List.mem_cons] at h
      rcases h with h | h
      · simp [h]
      · rcases ih h with h | h <;> simp [h]

theorem Memory.insert_rising {m : Memory} {a : Nat} (v : Byte)
    (hm : m.Pairwise (fun x y => x.1 < y.1)) (h : ∀ c ∈ m, c.1 ≠ a) :
    (Memory.insert a v m).Pairwise (fun x y => x.1 < y.1) := by
  induction m with
  | nil => simp [Memory.insert]
  | cons d rest ih =>
    obtain ⟨x, w⟩ := d
    have hd := List.pairwise_cons.1 hm
    by_cases hlt : a < x
    · simp only [Memory.insert, hlt, if_true]
      refine List.pairwise_cons.2 ⟨?_, hm⟩
      intro c hc
      rcases List.mem_cons.1 hc with rfl | hc
      · exact hlt
      · exact lt_trans hlt (hd.1 c hc)
    · simp only [Memory.insert, hlt, if_false]
      have hx : x ≠ a := h (x, w) (by simp)
      refine List.pairwise_cons.2 ⟨?_, ih hd.2 (fun c hc => h c (by simp [hc]))⟩
      intro c hc
      rcases Memory.mem_insert hc with rfl | hc
      · exact lt_of_le_of_ne (not_lt.1 hlt) hx
      · exact hd.1 c hc

/-- A write keeps the canonical form. -/
theorem Memory.write_wf {m : Memory} (hm : m.wf) (a : Nat) (v : Byte) : (m.write a v).wf := by
  have hf : (m.filter (fun c => c.1 != a)).Pairwise (fun x y : Host.Cell => x.1 < y.1) := hm.1.filter _
  have hv : ∀ c ∈ m.filter (fun c => c.1 != a), c.2 ≠ Memory.unwritten :=
    fun c hc => hm.2 c (List.mem_filter.1 hc).1
  unfold Memory.write
  by_cases h0 : v = Memory.unwritten
  · rw [if_pos h0]; exact ⟨hf, hv⟩
  · simp only [h0, if_false]
    refine ⟨Memory.insert_rising v hf (fun c hc => by simpa using (List.mem_filter.1 hc).2), ?_⟩
    intro c hc
    rcases Memory.mem_insert hc with rfl | hc
    · exact h0
    · exact hv c hc

/-- A write at an address that exists keeps the extent. -/
theorem Memory.write_within {m : Memory} {size a : Nat} (hm : m.within size) (ha : a < size) (v : Byte) :
    (m.write a v).within size := by
  intro c hc
  unfold Memory.write at hc
  by_cases h0 : v = Memory.unwritten
  · simp only [h0, if_true] at hc; exact hm c (List.mem_filter.1 hc).1
  · simp only [h0, if_false] at hc
    rcases Memory.mem_insert hc with rfl | hc
    · exact ha
    · exact hm c (List.mem_filter.1 hc).1

theorem Memory.writeFrom_wf {m : Memory} (hm : m.wf) (a : Nat) (bytes : List Byte) :
    (m.writeFrom a bytes).wf := by
  induction bytes generalizing m a with
  | nil => exact hm
  | cons v rest ih => exact ih (Memory.write_wf hm a v) (a + 1)

theorem Memory.writeFrom_within {m : Memory} {size a : Nat} (hm : m.within size) (bytes : List Byte)
    (h : a + bytes.length ≤ size) : (m.writeFrom a bytes).within size := by
  induction bytes generalizing m a with
  | nil => exact hm
  | cons v rest ih =>
    simp only [List.length_cons] at h
    exact ih (Memory.write_within hm (by omega) v) (by omega)

/-- What a byte reads as after a run of writes from `a` upward. -/
theorem Memory.read_writeFrom (m : Memory) (a b : Nat) (bytes : List Byte) :
    (m.writeFrom a bytes).read b =
      if a ≤ b ∧ b < a + bytes.length then bytes.getD (b - a) 0#8 else m.read b := by
  induction bytes generalizing m a with
  | nil =>
    have h : ¬ (a ≤ b ∧ b < a + ([] : List Byte).length) := by simp
    rw [if_neg h, Memory.writeFrom]
  | cons v rest ih =>
    simp only [Memory.writeFrom, ih, Memory.read_write, List.length_cons]
    rcases Nat.lt_trichotomy b a with h | h | h
    · have h1 : ¬ (a + 1 ≤ b ∧ b < a + 1 + rest.length) := by omega
      have h2 : ¬ (a ≤ b ∧ b < a + (rest.length + 1)) := by omega
      have h3 : b ≠ a := by omega
      rw [if_neg h1, if_neg h2, if_neg h3]
    · subst h
      have h1 : ¬ (b + 1 ≤ b ∧ b < b + 1 + rest.length) := by omega
      have h2 : b ≤ b ∧ b < b + (rest.length + 1) := by omega
      rw [if_neg h1, if_pos h2]; simp
    · have h3 : b ≠ a := by omega
      by_cases h1 : b < a + 1 + rest.length
      · have e : b - a = (b - (a + 1)) + 1 := by omega
        rw [if_pos ⟨by omega, h1⟩, if_pos ⟨by omega, by omega⟩, e]; simp
      · rw [if_neg (by omega), if_neg h3, if_neg (by omega)]

@[simp] theorem Memory.length_readRange (m : Memory) (n : Nat) : (m.readRange n).length = n := by
  simp [Memory.readRange]

@[simp] theorem Memory.getElem_readRange (m : Memory) (n i : Nat) (h : i < (m.readRange n).length) :
    (m.readRange n)[i] = m.read i := by
  simp [Memory.readRange]

/-- Two memories that agree on the first `n` bytes are read alike. -/
theorem Memory.readRange_congr {m m' : Memory} {n : Nat} (h : ∀ a < n, m.read a = m'.read a) :
    m.readRange n = m'.readRange n := by
  simp only [Memory.readRange]
  exact List.map_congr_left fun a ha => h a (List.mem_range.1 ha)

end Sys2Proof.Machine
end

