-- ==== Sys2Proof/Laws/SiteSelector.lean ====
section
/-!
SUPPORT. The site sequences: bounds, distinctness and length of what each selector variant yields, and how a site
sequence stands in the 32-bit site table.
-/

namespace Sys2Proof.Machine

/-- Element count, element index, carrier address and pixel samples with `CHANNELS` at its value, as the rules write them. -/
theorem State.elemCount_eq (s : State) : s.elemCount = s.height.toNat * s.width.toNat * 3 := rfl

theorem elementIndex_eq (w row col channel : Nat) :
    elementIndex w row col channel = (row * w + col) * 3 + channel := rfl

theorem carrierOf_eq (w e : Nat) : carrierOf w e = (e / (3 * w), e / 3 % w, e % 3) := rfl

theorem pixelSites_eq (p : Nat) : pixelSites p = [3 * p, 3 * p + 1, 3 * p + 2] := rfl

/-- A sample belongs to the pixel of its index. -/
theorem mem_pixelSites {p e : Nat} : e ∈ pixelSites p ↔ e / 3 = p := by
  simp only [pixelSites_eq, List.mem_cons, List.not_mem_nil, or_false]
  omega

/-- The samples of a pixel, if its mask bit is set. -/
theorem mem_maskSites {pixels e : Nat} {mask : List Bool} :
    e ∈ maskSites pixels mask ↔ e / 3 < pixels ∧ bitAt mask (e / 3) = true := by
  simp only [maskSites, List.mem_flatMap, List.mem_range]
  constructor
  · rintro ⟨p, hp, he⟩
    by_cases hm : bitAt mask p = true
    · rw [if_pos hm, mem_pixelSites] at he
      exact he ▸ ⟨hp, hm⟩
    · simp [hm] at he
  · rintro ⟨hp, hm⟩
    exact ⟨e / 3, hp, by rw [if_pos hm, mem_pixelSites]⟩

theorem maskSites_succ (pixels : Nat) (mask : List Bool) :
    maskSites (pixels + 1) mask =
      maskSites pixels mask ++ if bitAt mask pixels then pixelSites pixels else [] := by
  simp [maskSites, List.range_succ]

/-- The edge variant lists its sites in increasing order. -/
theorem maskSites_rising (pixels : Nat) (mask : List Bool) :
    (maskSites pixels mask).Pairwise (· < ·) := by
  induction pixels with
  | zero => simp [maskSites]
  | succ p ih =>
    rw [maskSites_succ]
    refine List.pairwise_append.2 ⟨ih, ?_, ?_⟩
    · split <;> simp [pixelSites_eq]
    · intro a ha b hb
      have h := (mem_maskSites.1 ha).1
      split at hb
      · rw [mem_pixelSites] at hb
        omega
      · simp at hb

theorem maskSites_lt {pixels e : Nat} {mask : List Bool} (h : e ∈ maskSites pixels mask) : e < pixels * 3 := by
  have := (mem_maskSites.1 h).1
  omega

/-- The law of the collaborators makes every site sequence a list of distinct element indices below `M`. -/
theorem siteSequence_lt {C : Collab} (hC : C.Lawful) {s : State} (hs : s.elemCount ≤ Config.maxElems)
    {k : Kind} {e : Nat} (h : e ∈ siteSequence C k s) : e < s.elemCount := by
  cases k with
  | seq => simpa [siteSequence, orderSeq] using h
  | edge => exact maskSites_lt h
  | perm => simpa using (hC.1 s.seed s.elemCount hs).mem_iff.1 h

theorem siteSequence_nodup {C : Collab} (hC : C.Lawful) {s : State} (hs : s.elemCount ≤ Config.maxElems)
    (k : Kind) : (siteSequence C k s).Nodup := by
  cases k with
  | seq => exact List.nodup_range
  | edge => exact (maskSites_rising _ _).imp (fun h => Nat.ne_of_lt h)
  | perm => exact (hC.1 s.seed s.elemCount hs).nodup_iff.2 List.nodup_range

theorem length_le_of_nodup_lt {l : List Nat} {m : Nat} (hd : l.Nodup) (hl : ∀ e ∈ l, e < m) : l.length ≤ m := by
  have h := (List.subperm_of_subset hd (fun e he => List.mem_range.2 (hl e he))).length_le
  simpa using h

theorem siteSequence_length_le {C : Collab} (hC : C.Lawful) {s : State} (hs : s.elemCount ≤ Config.maxElems)
    (k : Kind) : (siteSequence C k s).length ≤ s.elemCount :=
  length_le_of_nodup_lt (siteSequence_nodup hC hs k) fun _ he => siteSequence_lt hC hs he

/-- Indices below 2^32 stand in the 32-bit site table unchanged. -/
theorem map_toNat_siteTable {l : List Nat} (h : ∀ e ∈ l, e < 2 ^ 32) :
    (l.map (BitVec.ofNat Config.xlen)).map BitVec.toNat = l := by
  rw [List.map_map]
  conv_rhs => rw [← List.map_id l]
  refine List.map_congr_left fun e he => ?_
  simp only [Function.comp, BitVec.toNat_ofNat, id]
  exact Nat.mod_eq_of_lt (h e he)

theorem siteTable_nodup {l : List Nat} (hd : l.Nodup) (h : ∀ e ∈ l, e < 2 ^ 32) :
    (l.map (BitVec.ofNat Config.xlen)).Nodup := by
  refine List.Nodup.of_map BitVec.toNat ?_
  rwa [map_toNat_siteTable h]

/-- The site table of a legal image holds exactly its site sequence, no address twice. -/
theorem siteTable_toNat {C : Collab} (hC : C.Lawful) {s : State} (hs : s.elemCount ≤ Config.maxElems) (k : Kind) :
    ((siteSequence C k s).map (BitVec.ofNat Config.xlen)).map BitVec.toNat = siteSequence C k s := by
  refine map_toNat_siteTable fun e he => ?_
  have := siteSequence_lt hC hs he
  have hm : Config.maxElems = 536870911 := rfl
  omega

theorem siteTable_distinct {C : Collab} (hC : C.Lawful) {s : State} (hs : s.elemCount ≤ Config.maxElems)
    (k : Kind) : ((siteSequence C k s).map (BitVec.ofNat Config.xlen)).Nodup := by
  refine siteTable_nodup (siteSequence_nodup hC hs k) fun e he => ?_
  have := siteSequence_lt hC hs he
  have hm : Config.maxElems = 536870911 := rfl
  omega

/-- The machine's own collaborators meet the law, whatever the free values are. -/
theorem perm_isPerm (seed : Word) (m : Nat) : (Config.perm seed m).Perm (List.range m) := by
  unfold Config.perm
  split
  · exact List.isPerm_iff.1 ‹_›
  · exact List.Perm.refl _

theorem length_edgeDetect (img : List Byte) (h w : Nat) (low high : Word) :
    (Config.edgeDetect img h w low high).length = h * w := by
  simp [Config.edgeDetect]

@[simp] theorem length_swapAt (pt : List Nat) (i j : Nat) : (swapAt pt i j).length = pt.length := by
  simp [swapAt]

end Sys2Proof.Machine
end

