-- ==== Sys2Proof/Laws/Codec.lean ====
section
/-!
SUPPORT. The sample update and read bit by bit, what the writes of `EMBED` step 5 leave at every address, what the
operand checks let through, and for every command the cases it can end in.
-/

namespace Sys2Proof.Machine

/-- The low mask has ones in its `n` low bits. -/
theorem getLsbD_lowmask {n : Nat} (hn : n ≤ 8) (i : Nat) : (lowmask n).getLsbD i = decide (i < n) := by
  rw [lowmask, BitVec.getLsbD_ofNat, Nat.testBit_two_pow_sub_one]
  by_cases h : i < n
  · have h8 : i < 8 := by omega
    simp [h, h8]
  · simp [h]

/-- Bits `n` and above of an updated sample are the sample's, the bits below are the symbol's. -/
theorem getLsbD_sampleUpdate {n : Nat} (hn : n ≤ 8) (v y : Byte) (i : Nat) (hi : i < 8) :
    (sampleUpdate n v y).getLsbD i = ((v.getLsbD i && !decide (i < n)) || y.getLsbD i) := by
  rw [sampleUpdate, BitVec.getLsbD_or, BitVec.getLsbD_and, BitVec.getLsbD_not, getLsbD_lowmask hn]
  simp only [hi, decide_true, Bool.true_and]

theorem getLsbD_sampleRead {n : Nat} (hn : n ≤ 8) (v : Byte) (i : Nat) :
    (sampleRead n v).getLsbD i = (v.getLsbD i && decide (i < n)) := by
  rw [sampleRead, BitVec.getLsbD_and, getLsbD_lowmask hn]

/-- A symbol below `2 ^ n` has no bit at `n` or above. -/
theorem getLsbD_of_lt {y : Byte} {n i : Nat} (hy : y.toNat < 2 ^ n) (h : n ≤ i) : y.getLsbD i = false := by
  rw [BitVec.getLsbD]
  exact Nat.testBit_lt_two_pow (lt_of_lt_of_le hy (Nat.pow_le_pow_right (by decide) h))

/-- A byte with no bit at `n` or above is below `2 ^ n`. -/
theorem lt_of_getLsbD {y : Byte} {n : Nat} (h : ∀ i, n ≤ i → y.getLsbD i = false) : y.toNat < 2 ^ n :=
  Nat.lt_pow_two_of_testBit y.toNat fun i hi => h i hi

/-- What is read from a sample is a symbol of `n` bits. -/
theorem sampleRead_lt {n : Nat} (hn : n ≤ 8) (v : Byte) : (sampleRead n v).toNat < 2 ^ n :=
  lt_of_getLsbD fun i hi => by
    rw [getLsbD_sampleRead hn]
    simp [Nat.not_lt.2 hi]

/-- Reading a sample after updating it gives the symbol back. -/
theorem sampleRead_sampleUpdate {n : Nat} (hn : n ≤ 8) (v y : Byte) (hy : y.toNat < 2 ^ n) :
    sampleRead n (sampleUpdate n v y) = y := by
  refine BitVec.eq_of_getLsbD_eq fun i hi => ?_
  rw [getLsbD_sampleRead hn, getLsbD_sampleUpdate hn _ _ _ hi]
  by_cases h : i < n
  · simp [h]
  · simp [h, getLsbD_of_lt hy (not_lt.1 h)]

/-- `EMBED` step 5 leaves every address that is no site as it was. -/
theorem read_writeSymbols_other (n : Nat) (m : Memory) (pairs : List (Word × Byte)) (a : Nat)
    (h : ∀ p ∈ pairs, p.1.toNat ≠ a) : (writeSymbols n m pairs).read a = m.read a := by
  induction pairs generalizing m with
  | nil => rfl
  | cons p rest ih =>
    obtain ⟨e, y⟩ := p
    rw [writeSymbols, ih _ (fun q hq => h q (by simp [hq]))]
    exact Memory.read_write_other _ _ (h (e, y) (by simp)).symm

/-- `EMBED` step 5 updates the sample at each site once, when the sites are distinct. -/
theorem read_writeSymbols_site (n : Nat) (m : Memory) (pairs : List (Word × Byte))
    (hd : (pairs.map Prod.fst).Nodup) {p : Word × Byte} (hp : p ∈ pairs) :
    (writeSymbols n m pairs).read p.1.toNat = sampleUpdate n (m.read p.1.toNat) p.2 := by
  induction pairs generalizing m with
  | nil => simp at hp
  | cons q rest ih =>
    obtain ⟨e, y⟩ := q
    have hd := List.nodup_cons.1 (by simpa using hd : (e :: rest.map Prod.fst).Nodup)
    have hne : ∀ r ∈ rest, r.1 ≠ e := fun r hr he => hd.1 (he ▸ List.mem_map_of_mem hr)
    rw [writeSymbols]
    rcases List.mem_cons.1 hp with rfl | hp
    · rw [read_writeSymbols_other]
      · simp
      · intro r hr he
        exact hne r hr (BitVec.eq_of_toNat_eq he)
    · rw [ih _ hd.2 hp, Memory.read_write_other]
      intro he
      exact hne p hp (BitVec.eq_of_toNat_eq he)

theorem writeSymbols_wf {m : Memory} (hm : m.wf) (n : Nat) (pairs : List (Word × Byte)) :
    (writeSymbols n m pairs).wf := by
  induction pairs generalizing m with
  | nil => exact hm
  | cons p rest ih => exact ih (Memory.write_wf hm _ _)

theorem writeSymbols_within {m : Memory} {size : Nat} (hm : m.within size) (n : Nat)
    (pairs : List (Word × Byte)) (h : ∀ p ∈ pairs, p.1.toNat < size) :
    (writeSymbols n m pairs).within size := by
  induction pairs generalizing m with
  | nil => exact hm
  | cons p rest ih =>
    exact ih (Memory.write_within hm (h p (by simp)) _) (fun q hq => h q (by simp [hq]))

/-- What passes the selector's operand checks: the variant of `KIND`, and a width of 1 to 8 that is 1 unless the
variant is `PERM`, and then is `NBITS`. -/
theorem selector_some {s : State} {k : Kind} {n : Nat} (h : s.selector = some (k, n)) :
    kindOf s.kind = some k ∧ 1 ≤ n ∧ n ≤ 8 ∧ (k ≠ .perm → n = 1) ∧ (k = .perm → n = s.nbits.toNat) := by
  unfold State.selector at h
  split at h
  · simp at h
  · simp only [Option.some.injEq, Prod.mk.injEq] at h
    obtain ⟨rfl, rfl⟩ := h
    simp_all
  · simp only [Option.some.injEq, Prod.mk.injEq] at h
    obtain ⟨rfl, rfl⟩ := h
    simp_all
  · split at h
    · rename_i hw
      simp only [Option.some.injEq, Prod.mk.injEq] at h
      obtain ⟨rfl, rfl⟩ := h
      have := of_decide_eq_true hw
      simp_all
    · simp at h

/-- The image check reads the shape alone. -/
theorem State.imageLegal_congr {s s' : State} (hh : s'.height = s.height) (hw : s'.width = s.width) :
    s'.imageLegal = s.imageLegal := by
  unfold State.imageLegal State.elemCount
  rw [hh, hw]

/-- The payload check reads `PLEN` alone. -/
theorem State.payloadLegal_congr {s s' : State} (h : s'.plen = s.plen) : s'.payloadLegal = s.payloadLegal := by
  unfold State.payloadLegal
  rw [h]

/-- The selector's operand check reads `KIND` and, for `PERM` only, `NBITS`. -/
theorem State.selector_congr {s s' : State} (hk : s'.kind = s.kind) (hn : s.kind = 2#32 → s'.nbits = s.nbits) :
    s'.selector = s.selector := by
  unfold State.selector
  rw [hk]
  by_cases h : s.kind = 2#32
  · rw [hn h]
  · have : kindOf s.kind ≠ some .perm := by
      unfold kindOf
      split_ifs <;> simp
    split <;> simp_all

/-- A site sequence reads the shape, and the seed, or the thresholds and the image. -/
theorem siteSequence_congr {s s' : State} (C : Collab) (k : Kind) (hh : s'.height = s.height)
    (hw : s'.width = s.width) (hs : s'.seed = s.seed) (hl : s'.lowThr = s.lowThr) (hg : s'.highThr = s.highThr)
    (hi : ∀ a < s.elemCount, s'.img.read a = s.img.read a) : siteSequence C k s' = siteSequence C k s := by
  have he : s'.elemCount = s.elemCount := by unfold State.elemCount; rw [hh, hw]
  cases k with
  | seq => simp only [siteSequence, he]
  | edge => simp only [siteSequence, orderEdge, he, hh, hw, hl, hg, Memory.readRange_congr hi]
  | perm => simp only [siteSequence, orderPerm, he, hs]

/-- The four ways the selector kind can stand, with the variant each selects. -/
theorem kindOf_cases (v : Word) :
    (v = 0#32 ∧ kindOf v = some .seq) ∨ (v = 1#32 ∧ kindOf v = some .edge) ∨
    (v = 2#32 ∧ kindOf v = some .perm) ∨ (v.toNat > 2 ∧ kindOf v = none) := by
  unfold kindOf
  by_cases h0 : v = 0#32
  · simp [h0]
  · by_cases h1 : v = 1#32
    · simp [h1]
    · by_cases h2 : v = 2#32
      · simp [h2]
      · refine .inr (.inr (.inr ⟨?_, by simp [h0, h1, h2]⟩))
        by_contra hc
        have : v.toNat = 0 ∨ v.toNat = 1 ∨ v.toNat = 2 := by omega
        rcases this with h | h | h
        · exact h0 (BitVec.eq_of_toNat_eq h)
        · exact h1 (BitVec.eq_of_toNat_eq h)
        · exact h2 (BitVec.eq_of_toNat_eq h)

/-- What a byte of `PAY` reads as after the payload is stored. -/
theorem read_storePayload (s : State) (a : Nat) :
    s.storePayload.pay.read a = if a < s.bs.length / 8 then groupValue s.bs 8 a else s.pay.read a := by
  simp only [State.storePayload_pay, Memory.read_writeFrom, length_unpackBits, Nat.zero_le, true_and, Nat.zero_add,
    Nat.sub_zero]
  by_cases h : a < s.bs.length / 8
  · rw [if_pos h, if_pos h, List.getD_eq_getElem _ _ (by simpa using h), getElem_unpackBits]
  · rw [if_neg h, if_neg h]

/-- `PACK` ends in one of two ways. -/
theorem execPack_cases (s : State) :
    (s.payloadLegal = true ∧ execPack s = .next (s.packPayload.record (encode .pack) .ok)) ∨
    (s.payloadLegal = false ∧ execPack s = .next (s.record (encode .pack) .badOperand)) := by
  by_cases h : s.payloadLegal = true
  · exact .inl ⟨h, by simp [execPack, h, completeOk, conclude]⟩
  · exact .inr ⟨by simpa using h, by simp [execPack, h, raise, conclude]⟩

/-- `CHUNK` ends in one of two ways. -/
theorem execChunk_cases (s : State) :
    (widthLegal s.nbits = true ∧
      execChunk s = .next ((s.setSym (chunkBits s.bs s.nbits.toNat)).record (encode .chunk) .ok)) ∨
    (widthLegal s.nbits = false ∧ execChunk s = .next (s.record (encode .chunk) .badOperand)) := by
  by_cases h : widthLegal s.nbits = true
  · exact .inl ⟨h, by simp [execChunk, h, completeOk, conclude]⟩
  · exact .inr ⟨by simpa using h, by simp [execChunk, h, raise, conclude]⟩

/-- What the three checks of `UNCHUNK` let through. -/
def unchunkLegal (s : State) : Prop :=
  widthLegal s.nbits = true ∧ s.totalBits.toNat ≤ s.sym.length * s.nbits.toNat ∧
    symbolsFit s.sym s.nbits.toNat = true

/-- `UNCHUNK` ends in one of two ways. -/
theorem execUnchunk_cases (s : State) :
    (unchunkLegal s ∧ execUnchunk s =
      .next ((s.setBs (unchunkBits s.sym s.nbits.toNat s.totalBits.toNat)).record (encode .unchunk) .ok)) ∨
    (¬ unchunkLegal s ∧ execUnchunk s = .next (s.record (encode .unchunk) .badOperand)) := by
  unfold execUnchunk unchunkLegal
  split
  · rename_i h; exact .inr ⟨by simp_all, rfl⟩
  · split
    · rename_i h; exact .inr ⟨by omega, rfl⟩
    · split
      · rename_i h; exact .inr ⟨by simp_all, rfl⟩
      · exact .inl ⟨by simp_all, rfl⟩

/-- `UNPACK` ends in one of two ways. -/
theorem execUnpack_cases (s : State) :
    (s.bs.length % 8 = 0 ∧ execUnpack s = .next (s.storePayload.record (encode .unpack) .ok)) ∨
    (s.bs.length % 8 ≠ 0 ∧ execUnpack s = .next (s.record (encode .unpack) .malformedBitstream)) := by
  by_cases h : s.bs.length % 8 = 0
  · exact .inl ⟨h, by simp [execUnpack, h, completeOk, conclude]⟩
  · exact .inr ⟨h, by simp [execUnpack, h, raise, conclude]⟩

/-- `ORDER` ends in one of two ways. -/
theorem orderWith_cases (C : Collab) (s : State) :
    (∃ k, kindOf s.kind = some k ∧ s.imageLegal = true ∧
      orderWith C s = .next ((s.loadSites C k).record (encode .order) .ok)) ∨
    ((kindOf s.kind = none ∨ s.imageLegal = false) ∧
      orderWith C s = .next (s.record (encode .order) .badOperand)) := by
  unfold orderWith
  cases hk : kindOf s.kind with
  | none => exact .inr ⟨.inl rfl, rfl⟩
  | some k =>
    by_cases h : s.imageLegal = true
    · exact .inl ⟨k, rfl, h, by simp [h, completeOk, conclude]⟩
    · exact .inr ⟨.inr (by simpa using h), by simp [h, raise, conclude]⟩

/-- `VALIDATE` ends in one of two ways; when its operands are legal `CAP` is written whatever the answer. -/
theorem execValidate_cases (s : State) :
    (∃ k n, s.selector = some (k, n) ∧
      execValidate s = .next ((s.setCap (s.capacityBits n)).record (encode .validate)
        (validateCapacity (s.capacityBits n) s.bs.length))) ∨
    (s.selector = none ∧ execValidate s = .next (s.record (encode .validate) .badOperand)) := by
  unfold execValidate
  cases hk : s.selector with
  | none => exact .inr ⟨rfl, rfl⟩
  | some p => exact .inl ⟨p.1, p.2, rfl, rfl⟩

/-- `EMBED` ends in one of three ways. -/
theorem embedWith_cases (C : Collab) (s : State) :
    (∃ k n, s.selector = some (k, n) ∧ s.imageLegal = true ∧ s.payloadLegal = true ∧
      8 * s.plen.toNat ≤ (siteSequence C k s).length * n ∧
      embedWith C s = .next (((s.embedPrepare C k n).embedWrite n).record (encode .embed) .ok)) ∨
    (∃ k n, s.selector = some (k, n) ∧ s.imageLegal = true ∧ s.payloadLegal = true ∧
      (siteSequence C k s).length * n < 8 * s.plen.toNat ∧
      embedWith C s = .next ((s.embedPrepare C k n).record (encode .embed) .insufficientCapacity)) ∨
    ((s.selector = none ∨ s.imageLegal = false ∨ s.payloadLegal = false) ∧
      embedWith C s = .next (s.record (encode .embed) .badOperand)) := by
  unfold embedWith
  cases hk : s.selector with
  | none => exact .inr (.inr ⟨.inl rfl, rfl⟩)
  | some p =>
    obtain ⟨k, n⟩ := p
    by_cases h : (s.imageLegal && s.payloadLegal) = true
    · have hl := (Bool.and_eq_true _ _).mp h
      have hreq : (s.embedPrepare C k n).bs.length = 8 * s.plen.toNat := by simp [State.payload]
      have hcap : (s.embedPrepare C k n).capacityBits n = (siteSequence C k s).length * n := by
        simp [State.capacityBits]
      by_cases hfit : 8 * s.plen.toNat ≤ (siteSequence C k s).length * n
      · refine .inl ⟨k, n, rfl, hl.1, hl.2, hfit, ?_⟩
        simp only [h, if_true, hreq, hcap, validateCapacity, hfit]
        rfl
      · refine .inr (.inl ⟨k, n, rfl, hl.1, hl.2, by omega, ?_⟩)
        simp only [h, if_true, hreq, hcap, validateCapacity, hfit, if_false]
        rfl
    · refine .inr (.inr ⟨.inr ?_, by simp [h, raise, conclude]⟩)
      by_cases hi : s.imageLegal = true
      · right; simpa [hi] using h
      · left; simpa using hi

/-- `EXTRACT` ends in one of four ways. -/
theorem extractWith_cases (C : Collab) (s : State) :
    (∃ k n, s.selector = some (k, n) ∧ s.imageLegal = true ∧
      ceilDiv s.totalBits.toNat n ≤ (siteSequence C k s).length ∧ s.totalBits.toNat % 8 = 0 ∧
      extractWith C s = .next ((((s.loadSites C k).extractBits n (ceilDiv s.totalBits.toNat n)).storePayload).record
        (encode .extract) .ok)) ∨
    (∃ k n, s.selector = some (k, n) ∧ s.imageLegal = true ∧
      (siteSequence C k s).length < ceilDiv s.totalBits.toNat n ∧
      extractWith C s = .next ((s.loadSites C k).record (encode .extract) .insufficientSites)) ∨
    (∃ k n, s.selector = some (k, n) ∧ s.imageLegal = true ∧
      ceilDiv s.totalBits.toNat n ≤ (siteSequence C k s).length ∧ s.totalBits.toNat % 8 ≠ 0 ∧
      extractWith C s = .next (((s.loadSites C k).extractBits n (ceilDiv s.totalBits.toNat n)).record
        (encode .extract) .malformedBitstream)) ∨
    ((s.selector = none ∨ s.imageLegal = false) ∧
      extractWith C s = .next (s.record (encode .extract) .badOperand)) := by
  unfold extractWith
  cases hk : s.selector with
  | none => exact .inr (.inr (.inr ⟨.inl rfl, rfl⟩))
  | some p =>
    obtain ⟨k, n⟩ := p
    by_cases h : s.imageLegal = true
    · have hsites : (s.loadSites C k).st.length = (siteSequence C k s).length := by simp
      have hbits : ∀ c, ((s.loadSites C k).extractBits n c).bs.length = s.totalBits.toNat := by simp
      by_cases hfew : (siteSequence C k s).length < ceilDiv s.totalBits.toNat n
      · refine .inr (.inl ⟨k, n, rfl, h, hfew, ?_⟩)
        simp only [h, if_true, hsites, hfew]
        rfl
      · by_cases h8 : s.totalBits.toNat % 8 = 0
        · refine .inl ⟨k, n, rfl, h, by omega, h8, ?_⟩
          simp only [h, if_true, hsites, hfew, if_false, hbits, h8, ne_eq, not_true]
          rfl
        · refine .inr (.inr (.inl ⟨k, n, rfl, h, by omega, h8, ?_⟩))
          simp only [h, if_true, hsites, hfew, if_false, hbits, h8, ne_eq, not_false_eq_true]
          rfl
    · exact .inr (.inr (.inr ⟨.inr (by simpa using h), by simp [h, raise, conclude]⟩))

end Sys2Proof.Machine
end

