-- ==== Sys2Proof/Laws/PerInstr.lean ====
section
/-!
SUPPORT. A statement about every command as syntax, one lemma per constructor.
-/

namespace Sys2Proof.Laws.EncodingRoundTrip

/-- The command is well formed, and its word alone decodes to it with nothing left over (rules R61, R62, R69). -/
def Statement (i : Instr) : Prop := i.wf = true ∧ decode [encode i] = .ok (i, [])

theorem pack : Statement .pack := ⟨rfl, rfl⟩
theorem chunk : Statement .chunk := ⟨rfl, rfl⟩
theorem unchunk : Statement .unchunk := ⟨rfl, rfl⟩
theorem unpack : Statement .unpack := ⟨rfl, rfl⟩
theorem order : Statement .order := ⟨rfl, rfl⟩
theorem validate : Statement .validate := ⟨rfl, rfl⟩
theorem embed : Statement .embed := ⟨rfl, rfl⟩
theorem extract : Statement .extract := ⟨rfl, rfl⟩

end Sys2Proof.Laws.EncodingRoundTrip
end

