-- ==== Sys2Proof/Laws/Status.lean ====
section
/-!
SUPPORT. The fields of the word that a completing command writes to `STATUS`.
-/

namespace Sys2Proof.Machine

@[simp] theorem statusWord_err (c : ResultCode) (w : Byte) : (statusWord c w).extractLsb' 0 3 = c.code := by
  cases c <;> revert w <;> decide

@[simp] theorem statusWord_lastop (c : ResultCode) (w : Byte) : (statusWord c w).extractLsb' 8 8 = w := by
  cases c <;> revert w <;> decide

@[simp] theorem statusWord_reservedLow (c : ResultCode) (w : Byte) : (statusWord c w).extractLsb' 3 5 = 0#5 := by
  cases c <;> revert w <;> decide

@[simp] theorem statusWord_reservedHigh (c : ResultCode) (w : Byte) : (statusWord c w).extractLsb' 16 16 = 0#16 := by
  cases c <;> revert w <;> decide

@[simp] theorem State.record_err (s : State) (w : Byte) (c : ResultCode) : (s.record w c).err = c.code := by
  simp [State.err, State.record]

theorem ResultCode.code_le (c : ResultCode) : c.code.toNat ≤ 5 := by cases c <;> decide

theorem ResultCode.code_injective {c d : ResultCode} (h : c.code = d.code) : c = d := by
  cases c <;> cases d <;> first | rfl | (exact absurd h (by decide))

end Sys2Proof.Machine
end

