-- ==== Sys2Proof/Laws/Step.lean ====
section
/-!
SUPPORT. The decoder against the encoder, and what a step and each transaction can do.
-/

namespace Sys2Proof

@[simp] theorem decodeWord_encode (i : Instr) : decodeWord (encode i) = .ok i := by
  cases i <;> rfl

/-- Only the eight command words decode, each to its own command. -/
theorem encode_of_decodeWord {w : Byte} {i : Instr} (h : decodeWord w = .ok i) : encode i = w := by
  revert h
  cases i <;> revert w <;> decide

/-- A word that does not decode is refused by its own name. -/
theorem decodeWord_error {w : Byte} {e : DecodeError} (h : decodeWord w = .error e) : e = .reserved w := by
  unfold decodeWord at h
  split at h
  · simp at h
  · simpa using h.symm

namespace Machine

/-- No command stops the machine: each concludes with a result code in a next state (rule R192). -/
theorem exec_concludes (i : Instr) (s : State) :
    ∃ (c : ResultCode) (t : State), c ≠ .illegalCommand ∧ exec i s = .next (t.record (encode i) c) := by
  cases i with
  | pack => rcases execPack_cases s with ⟨-, h⟩ | ⟨-, h⟩ <;> (refine ⟨_, _, ?_, h⟩; decide)
  | chunk => rcases execChunk_cases s with ⟨-, h⟩ | ⟨-, h⟩ <;> (refine ⟨_, _, ?_, h⟩; decide)
  | unchunk => rcases execUnchunk_cases s with ⟨-, h⟩ | ⟨-, h⟩ <;> (refine ⟨_, _, ?_, h⟩; decide)
  | unpack => rcases execUnpack_cases s with ⟨-, h⟩ | ⟨-, h⟩ <;> (refine ⟨_, _, ?_, h⟩; decide)
  | order =>
    rcases orderWith_cases Config.collab s with ⟨_, -, -, h⟩ | ⟨-, h⟩ <;> (refine ⟨_, _, ?_, h⟩; decide)
  | validate =>
    rcases execValidate_cases s with ⟨k, n, -, h⟩ | ⟨-, h⟩
    · refine ⟨_, _, ?_, h⟩
      unfold validateCapacity
      split <;> decide
    · (refine ⟨_, _, ?_, h⟩; decide)
  | embed =>
    rcases embedWith_cases Config.collab s with ⟨_, _, -, -, -, -, h⟩ | ⟨_, _, -, -, -, -, h⟩ | ⟨-, h⟩ <;>
      (refine ⟨_, _, ?_, h⟩; decide)
  | extract =>
    rcases extractWith_cases Config.collab s with
      ⟨_, _, -, -, -, -, h⟩ | ⟨_, _, -, -, -, h⟩ | ⟨_, _, -, -, -, -, h⟩ | ⟨-, h⟩ <;>
      (refine ⟨_, _, ?_, h⟩; decide)

/-- A step is idle or serves the oldest transaction. -/
theorem step_cases (s : State) :
    (s.inbox = [] ∧ step s = .next s) ∨
    (∃ t rest, s.inbox = t :: rest ∧ step s = serve t { s with inbox := rest }) := by
  unfold step State.takeTxn
  cases h : s.inbox with
  | nil => exact .inl ⟨rfl, rfl⟩
  | cons t rest => exact .inr ⟨t, rest, rfl, rfl⟩

/-- A step with a transaction waiting serves it. -/
theorem step_cons {s : State} {t : Txn} {rest : List Txn} (h : s.inbox = t :: rest) :
    step s = serve t { s with inbox := rest } := by
  simp [step, State.takeTxn, h]

/-- A host write of `PAY` changes one byte, or faults where there is none. -/
theorem serve_writePay (a : Nat) (v : Byte) (s : State) :
    serve (.writePay a v) s =
      if a < Config.maxPlen then .next { s with pay := s.pay.write a v, reply := none }
      else .fault (.payAddress a) := by
  by_cases h : a < Config.maxPlen <;> simp [serve, Txn.wf, h]

/-- A host write of `IMG` changes one byte, or faults where there is none. -/
theorem serve_writeImg (a : Nat) (v : Byte) (s : State) :
    serve (.writeImg a v) s =
      if a < Config.maxElems then .next { s with img := s.img.write a v, reply := none }
      else .fault (.imgAddress a) := by
  by_cases h : a < Config.maxElems <;> simp [serve, Txn.wf, h]

/-- A host read of `PAY` returns the byte, or faults where there is none. -/
theorem serve_readPay (a : Nat) (s : State) :
    serve (.readPay a) s =
      if a < Config.maxPlen then .next { s with reply := some (.byte (s.pay.read a)) }
      else .fault (.payAddress a) := by
  by_cases h : a < Config.maxPlen <;> simp [serve, Txn.wf, h]

/-- A host read of `IMG` returns the byte, or faults where there is none. -/
theorem serve_readImg (a : Nat) (s : State) :
    serve (.readImg a) s =
      if a < Config.maxElems then .next { s with reply := some (.byte (s.img.read a)) }
      else .fault (.imgAddress a) := by
  by_cases h : a < Config.maxElems <;> simp [serve, Txn.wf, h]

/-- A register write changes operand registers only. -/
theorem writeRegister_frame (r : BitVec 5) (v : Word) (s : State) :
    writeRegister r v s = { s with
      kind := (writeRegister r v s).kind, nbits := (writeRegister r v s).nbits,
      height := (writeRegister r v s).height, width := (writeRegister r v s).width,
      totalBits := (writeRegister r v s).totalBits, plen := (writeRegister r v s).plen,
      seed := (writeRegister r v s).seed, lowThr := (writeRegister r v s).lowThr,
      highThr := (writeRegister r v s).highThr } := by
  unfold writeRegister
  split
  · rename_i n _
    cases n <;> rfl
  · rfl

/-- A buffer read returns a value and may count a free one; nothing else changes. -/
theorem readBuffer_frame (buf : BitVec 2) (i : Word) (s : State) :
    ∃ v n, readBuffer buf i s = { s with reply := some (.value v), freeCount := n } := by
  unfold readBuffer
  split
  · exact ⟨_, _, rfl⟩
  · exact ⟨_, _, rfl⟩

/-- The register port finds every named register under its number. -/
@[simp] theorem regOfNumber_number (r : Reg) : regOfNumber r.number = some r := by
  cases r <;> rfl

end Machine

end Sys2Proof
end

