-- ==== Sys2Proof/Tests/Slice0.lean ====
section
/-!
SUPPORT. The model's own tests. Expected values are those of `spec/95_test_vectors.md` (the vector's name stands in
each docstring) or are written out from a rule. `witness_…` theorems show, for each statement with hypotheses, states
and operands that meet all of them, one for each clause, at the edge of its range.
-/

namespace Sys2Proof.Tests

open Sys2Proof Sys2Proof.Machine Sys2Proof.Claims

/-! ### Helpers -/

/-- The next state of an outcome, if there is one. -/
def nextOf : Result → Option State
  | .next s => some s
  | .fault _ => none
  | .refused _ => none

/-- One step with transaction `t` waiting. -/
def serveOne (t : Txn) (s : State) : Option State := nextOf (step { s with inbox := [t] })

/-- The bits of a string of binary digits. -/
def bitsOf (digits : List Nat) : List Bool := digits.map (· == 1)

/-- Load bytes into a memory from address 0. -/
def memOf (bytes : List Byte) : Memory := Memory.writeFrom [] 0 bytes

/-- A pair of collaborators for tests: the spec's reference permutation and a stipulated mask. -/
def refCollab (mask : List Bool) : Collab := { perm := permRef, edgeDetect := fun _ _ _ _ _ => mask }

/-- The plainest lawful collaborators. -/
def plainCollab : Collab :=
  { perm := fun _ m => List.range m, edgeDetect := fun _ h w _ _ => List.replicate (h * w) true }

theorem exists_next {r : Result} {c : BitVec 3} (h : (nextOf r).map State.err = some c) :
    ∃ t, r = .next t ∧ t.err = c := by
  cases r with
  | next s => exact ⟨s, rfl, by simpa [nextOf] using h⟩
  | fault r => simp [nextOf] at h
  | refused r => simp [nextOf] at h

theorem plainCollab_lawful : plainCollab.Lawful :=
  ⟨fun _ _ _ => List.Perm.refl _, fun _ _ _ _ _ => List.length_replicate⟩

/-! ### Well-formedness -/

/-- Rule R30: `PAY` has addresses 0 to `MAX_PLEN - 1`. -/
theorem test_wf_payAddress :
    Txn.wf (.writePay 536870910 0#8) = true ∧ Txn.wf (.writePay 536870911 0#8) = false ∧
    Txn.wf (.readPay 536870910) = true ∧ Txn.wf (.readPay 536870911) = false := by decide

/-- Rule R31: `IMG` has addresses 0 to `MAX_ELEMS - 1`. -/
theorem test_wf_imgAddress :
    Txn.wf (.writeImg 536870910 0#8) = true ∧ Txn.wf (.writeImg 536870911 0#8) = false ∧
    Txn.wf (.readImg 536870910) = true ∧ Txn.wf (.readImg 536870911) = false := by decide

/-- Rules R61, R67: a command has no field that could be out of range. -/
theorem test_wf_commands : Instr.all.all Instr.wf = true := by decide

/-- The canonical form of a memory refuses a wrong order, a repeat, and an entry that says nothing. -/
theorem test_wf_memory :
    Memory.wf [(1, 2#8), (5, 1#8)] ∧ ¬ Memory.wf [(5, 1#8), (1, 2#8)] ∧ ¬ Memory.wf [(1, 2#8), (1, 3#8)] ∧
    ¬ Memory.wf [(1, 0#8)] := by decide

/-! ### Decoding: the words of rule R62, bit by bit -/

theorem test_decode_pack : decode [0b00000001#8] = .ok (.pack, []) := by decide
theorem test_decode_chunk : decode [0b00000010#8] = .ok (.chunk, []) := by decide
theorem test_decode_unchunk : decode [0b00000011#8] = .ok (.unchunk, []) := by decide
theorem test_decode_unpack : decode [0b00000100#8] = .ok (.unpack, []) := by decide
theorem test_decode_order : decode [0b00001000#8] = .ok (.order, []) := by decide
theorem test_decode_validate : decode [0b00001001#8] = .ok (.validate, []) := by decide
theorem test_decode_embed : decode [0b00010000#8] = .ok (.embed, []) := by decide
theorem test_decode_extract : decode [0b00010001#8] = .ok (.extract, []) := by decide

/-- The reserved words of vectors G6 and G7 are refused by name, and so is an empty stream. -/
theorem test_decode_reserved :
    [0x00#8, 0x05#8, 0x07#8, 0x0A#8, 0x0F#8, 0x12#8, 0x80#8, 0xFF#8].all
      (fun w => decide (decodeWord w = .error (.reserved w))) = true ∧ decode [] = .error .noWord := by decide

/-- No two rows of the opcode map match the same word. -/
theorem test_opcodeMap_disjoint :
    opcodeMap.Pairwise (fun r q => r.pattern &&& (r.mask &&& q.mask) ≠ q.pattern &&& (r.mask &&& q.mask)) := by
  decide

/-- The table's numbering: `EMBED` is 8 bits of value 0x10. -/
theorem test_decodeTableWord : decodeTableWord 8 0x10 = some .embed ∧ decodeTableWord 8 0x05 = none := by decide

/-! ### Bit packer -/

/-- Vector A2. -/
theorem test_pack : (nextOf (exec .pack { State.reset with plen := 1#32, pay := memOf [0xB2#8] })).map
    (fun t => (t.status, t.blen, t.bs)) = some (0x0100#32, 8#32, bitsOf [1, 0, 1, 1, 0, 0, 1, 0]) := by decide

/-- Vector A7. -/
theorem test_pack_tooLong : (nextOf (exec .pack { State.reset with plen := 536870912#32, bs := [true] })).map
    (fun t => (t.status, t.bs)) = some (0x0104#32, [true]) := by decide

/-- Vector K3: the last group is padded on the right. -/
theorem test_chunk : (nextOf (exec .chunk { State.reset with
      nbits := 3#32, bs := bitsOf [1, 0, 1, 1, 0, 0, 1, 0, 0, 1, 0, 1, 1, 1, 0, 0] })).map
    (fun t => (t.status, t.symcnt, t.sym)) =
      some (0x0200#32, 6#32, [5#8, 4#8, 4#8, 5#8, 6#8, 0#8]) := by decide

/-- Vector K13. -/
theorem test_chunk_zeroWidth : (nextOf (exec .chunk { State.reset with nbits := 0#32, sym := [7#8] })).map
    (fun t => (t.status, t.sym)) = some (0x0204#32, [7#8]) := by decide

/-- Vector U2: two bits of the last symbol are kept. -/
theorem test_unchunk : (nextOf (exec .unchunk { State.reset with
      nbits := 3#32, totalBits := 8#32, sym := [5#8, 4#8, 7#8] })).map
    (fun t => (t.status, t.blen, t.bs)) = some (0x0300#32, 8#32, bitsOf [1, 0, 1, 1, 0, 0, 1, 1]) := by decide

/-- Vector U9: a symbol that is too large counts although its bits would be dropped. -/
theorem test_unchunk_largeSymbol : (nextOf (exec .unchunk { State.reset with
      nbits := 3#32, totalBits := 3#32, sym := [1#8, 9#8], bs := [true] })).map
    (fun t => (t.status, t.bs)) = some (0x0304#32, [true]) := by decide

/-- Vector X1: the third byte of `PAY` stays. -/
theorem test_unpack : (nextOf (exec .unpack { State.reset with
      bs := bitsOf [1, 0, 1, 1, 0, 0, 1, 0, 0, 1, 0, 1, 1, 1, 0, 0], pay := memOf [1#8, 2#8, 3#8] })).map
    (fun t => (t.status, t.plen, t.pay)) =
      some (0x0400#32, 2#32, [(0, 0xB2#8), (1, 0x5C#8), (2, 3#8)]) := by decide

/-- Vector X2. -/
theorem test_unpack_malformed : (nextOf (exec .unpack { State.reset with
      bs := bitsOf [1, 0, 1, 1, 0, 0, 1, 0, 0, 1, 0, 1], plen := 7#32 })).map
    (fun t => (t.status, t.plen, t.pay)) = some (0x0403#32, 7#32, []) := by decide

/-! ### Site selector -/

/-- Vectors O1 and O18: the product is exact, not reduced modulo 2^32. -/
theorem test_order :
    (nextOf (exec .order { State.reset with height := 1#32, width := 2#32 })).map
      (fun t => (t.status, t.slen, t.st)) =
        some (0x0800#32, 6#32, [0#32, 1#32, 2#32, 3#32, 4#32, 5#32]) ∧
    (nextOf (exec .order { State.reset with height := 65536#32, width := 65536#32, st := [9#32] })).map
      (fun t => (t.status, t.st)) = some (0x0804#32, [9#32]) := by decide

/-- Vector O4, the edge variant with a stipulated mask, and vector O9, the permuted variant with the reference
instance. -/
theorem test_order_variants :
    (nextOf (orderWith (refCollab [true, false, false, true])
        { State.reset with kind := 1#32, height := 2#32, width := 2#32 })).map
      (fun t => t.st) = some [0#32, 1#32, 2#32, 9#32, 10#32, 11#32] ∧
    (nextOf (orderWith (refCollab [])
        { State.reset with kind := 2#32, height := 2#32, width := 3#32, seed := 0x12345678#32 })).map
      (fun t => t.st.map BitVec.toNat) =
        some [3, 0, 17, 9, 5, 16, 15, 1, 14, 6, 12, 10, 11, 7, 4, 2, 13, 8] := by decide +kernel

/-- Rule R108: the values of the reference instance and the first draws from seed 0. -/
theorem test_permRef :
    permRef 0#32 2 = [1, 0] ∧ permRef 0#32 6 = [4, 0, 2, 3, 5, 1] ∧ permRef 1#32 6 = [4, 0, 3, 2, 5, 1] ∧
    permRef 0xFFFFFFFF#32 12 = [10, 0, 9, 4, 3, 7, 6, 8, 5, 1, 11, 2] ∧ permRef 0#32 0 = [] ∧
    permRef 0#32 1 = [0] ∧ permRefDraw 0#32 = 0x3C6EF35F#32 ∧ permRefDraw 0x3C6EF35F#32 = 0x47502932#32 := by
  decide +kernel

/-- Rule R42 and vector O2: element index 13 of a 4 by 4 image is the sample (1, 0, 1). -/
theorem test_elementIndex : elementIndex 4 1 0 1 = 13 ∧ carrierOf 4 13 = (1, 0, 1) := by decide

/-! ### Capacity -/

/-- Vector V1: equality is accepted. -/
theorem test_validate : (nextOf (exec .validate { State.reset with
      kind := 1#32, st := List.replicate 30 0#32, bs := List.replicate 30 false })).map
    (fun t => (t.status, t.cap)) = some (0x0900#32, 30#32) := by decide

/-- Vector V2: one bit more is refused and `CAP` is written all the same. -/
theorem test_validate_insufficient : (nextOf (exec .validate { State.reset with
      kind := 1#32, st := List.replicate 30 0#32, bs := List.replicate 31 false })).map
    (fun t => (t.status, t.cap)) = some (0x0901#32, 30#32) := by decide

/-! ### Codec -/

/-- The state of vector E1 before the command: a 4 by 4 image of `FF`, payload `B2`. -/
def beforeE1 : State := { State.reset with
  nbits := 5#32, height := 4#32, width := 4#32, plen := 1#32, pay := memOf [0xB2#8]
  img := memOf (List.replicate 48 0xFF#8) }

/-- Vector E1: only lowest bits change, `NBITS` is not read. -/
theorem test_embed : (nextOf (exec .embed beforeE1)).map
    (fun t => (t.status, t.symcnt, t.totalBits, t.cap, t.img.readRange 9)) =
      some (0x1000#32, 8#32, 8#32, 48#32,
        [0xFF#8, 0xFE#8, 0xFF#8, 0xFF#8, 0xFE#8, 0xFE#8, 0xFF#8, 0xFE#8, 0xFF#8]) := by decide +kernel

/-- Vector E2: width 8 over the reference instance replaces whole samples. -/
theorem test_embed_perm : (nextOf (embedWith (refCollab []) { State.reset with
      kind := 2#32, nbits := 8#32, height := 1#32, width := 1#32, plen := 3#32
      pay := memOf [0xAA#8, 0xBB#8, 0xCC#8], img := memOf [0x0B#8, 0x16#8, 0x21#8] })).map
    (fun t => (t.status, t.st, t.cap, t.totalBits, t.img.readRange 3)) =
      some (0x1000#32, [1#32, 2#32, 0#32], 24#32, 24#32, [0xCC#8, 0xAA#8, 0xBB#8]) := by decide +kernel

/-- Program P2, step 7: extraction of the stego image with the right key. -/
theorem test_extract : (nextOf (extractWith (refCollab []) { State.reset with
      kind := 2#32, nbits := 3#32, height := 2#32, width := 3#32, seed := 0x12345678#32, totalBits := 16#32
      img := memOf [0xA4#8, 0xA5#8, 0xAA#8, 0xAD#8, 0xB4#8, 0xBE#8, 0xBE#8, 0xC3#8, 0xC8#8, 0xCD#8, 0xD2#8, 0xD7#8,
        0xDC#8, 0xE1#8, 0xE6#8, 0xEB#8, 0xF0#8, 0xF4#8] })).map
    (fun t => (t.status, t.sym, t.plen, t.pay)) =
      some (0x1100#32, [5#8, 4#8, 4#8, 5#8, 6#8, 0#8], 2#32, [(0, 0xB2#8), (1, 0x5C#8)]) := by decide +kernel

/-- Program P4, steps 25 and 27: too few sites wins over a malformed length, and only `ST` is written. -/
theorem test_extract_priority : (nextOf (exec .extract { State.reset with
      height := 4#32, width := 4#32, totalBits := 60#32, sym := [9#8], plen := 6#32 })).map
    (fun t => (t.status, t.slen, t.sym, t.bs, t.plen)) = some (0x1102#32, 48#32, [9#8], [], 6#32) := by
  decide +kernel

/-- Section 2.6 of the vectors: sample `A5` at widths 1 to 8. -/
theorem test_sampleUpdate :
    [(1, 0#8), (2, 3#8), (3, 0#8), (4, 15#8), (5, 0#8), (6, 63#8), (7, 0#8), (8, 90#8)].map
      (fun p => (sampleUpdate p.1 0xA5#8 p.2, sampleRead p.1 0xA5#8)) =
    [(0xA4#8, 1#8), (0xA7#8, 1#8), (0xA0#8, 5#8), (0xAF#8, 5#8), (0xA0#8, 5#8), (0xBF#8, 37#8), (0x80#8, 37#8),
      (0x5A#8, 165#8)] := by decide

/-! ### Ports, reserved words, reset, steps -/

/-- Vectors G1 to G5. -/
theorem test_registerPort :
    (serveOne (.wr 0#5 0xFFFFFFFF#32) State.reset).map (readRegister 0#5) = some 0xFFFFFFFF#32 ∧
    (serveOne (.wr 16#5 5#32) State.reset).map (fun t => t.status) = some 0#32 ∧
    (serveOne (.rd 15#5) State.reset).map (fun t => t.reply) = some (some (.value 0#32)) := by decide

/-- Vector G7: `CMD 0x12` is illegal. -/
theorem test_reservedWord : (serveOne (.cmd 0x12#8) State.reset).map (fun t => (t.status, t.reply)) =
    some (0x1205#32, some (.result .illegalCommand)) := by decide

/-- Vector G10: after K3, item 0 of `SYM` is 5; and vector G12. -/
theorem test_bufferPort :
    (serveOne (.rdb 1#2 0#32) { State.reset with sym := [5#8, 4#8] }).map (fun t => t.reply) =
      some (some (.value 5#32)) ∧
    (serveOne (.rdb 3#2 7#32) State.reset).map (fun t => t.reply) = some (some (.value 0#32)) := by decide

/-- Vector G13. -/
theorem test_resetValues : (List.range 32).map (fun r => readRegister (BitVec.ofNat 5 r) State.reset) =
    (List.range 32).map (fun r => if r = 1 then 1#32 else 0#32) := by decide

/-- Rule R182: the reset input keeps the memories. -/
theorem test_resetInput : (serveOne .reset { State.reset with kind := 2#32, pay := [(3, 7#8)] }).map
    (fun t => (t.kind, t.nbits, t.pay)) = some (0#32, 1#32, [(3, 7#8)]) := by decide

/-- A host write of the value an unlisted address reads as removes the entry. -/
theorem test_memory_canonical : Memory.write (Memory.write [] 4 9#8) 4 0#8 = [] ∧
    Memory.write (Memory.write [] 4 9#8) 2 1#8 = [(2, 1#8), (4, 9#8)] := by decide

/-- The word placed as the next instruction is the one that runs. -/
theorem test_withFetchWord : (nextOf (step (State.reset.withFetchWord 8 0x08))).map (fun t => t.status) =
    some 0x0800#32 := by decide

/-- Rule R72: `LDPAY 0xB2 0x5C`, then `CMD PACK`. -/
theorem test_script : (nextOf (runSteps 4 (State.reset.submit (scriptLdpay [0xB2#8, 0x5C#8] ++ [scriptCmd .pack])))).map
    (fun t => (t.plen, t.blen, t.inbox)) = some (2#32, 16#32, []) := by decide

/-! ### Witnesses: encoding and stepping -/

theorem witness_EveryCommandWordIsCommandOrReserved : 0x11#8 ∈ commandWords ∧ 0x12#8 ∉ commandWords := by decide

theorem witness_StepRunsTheDecodedCommand :
    ({ State.reset with inbox := [.cmd 0x10#8] } : State).inbox = .cmd 0x10#8 :: [] ∧
    decode [0x10#8] = .ok (.embed, []) := by decide

theorem witness_ReservedWordChangesStatusOnly :
    ({ State.reset with inbox := [.cmd 0xFF#8] } : State).inbox = .cmd 0xFF#8 :: [] ∧ 0xFF#8 ∉ commandWords := by decide

theorem witness_IdleBlockHoldsItsState : State.reset.inbox = [] := by decide

theorem witness_CommandRecordsResultAndWord :
    ({ State.reset with inbox := [.cmd 0x00#8, .reset] } : State).inbox = .cmd 0x00#8 :: [.reset] := by decide

theorem witness_OnlyMissingHostAddressesStop :
    Servable { State.reset with inbox := [.writePay 536870910 1#8, .cmd 0x05#8] } ∧
    ({ State.reset with inbox := [.readImg 536870911] } : State).inbox = .readImg 536870911 :: [] ∧
    (Txn.readImg 536870911).wf = false := by
  refine ⟨?_, rfl, by decide⟩
  intro t ht
  simp only [List.mem_cons, List.not_mem_nil, or_false] at ht
  rcases ht with rfl | rfl <;> decide

/-! ### Witnesses: reset and the ports -/

theorem witness_ResetInputKeepsTheMemories :
    ({ State.reset with inbox := [.reset], img := [(0, 1#8)] } : State).inbox = .reset :: [] := by decide

/-- The last operand register, the first reserved number, and a read. -/
theorem witness_RegisterPortFollowsItsTable :
    ({ State.reset with inbox := [.wr 8#5 1#32] } : State).inbox = .wr 8#5 1#32 :: [] ∧
    ({ State.reset with inbox := [.wr 9#5 1#32] } : State).inbox = .wr 9#5 1#32 :: [] ∧
    ({ State.reset with inbox := [.rd 31#5] } : State).inbox = .rd 31#5 :: [] := by decide

/-- The last item of each buffer, and the reserved select. -/
theorem witness_BufferPortReadsTheItem :
    (0#32).toNat < ({ State.reset with bs := [true], inbox := [.rdb 0#2 0#32] } : State).bs.length ∧
    (1#32).toNat < ({ State.reset with sym := [1#8, 2#8], inbox := [.rdb 1#2 1#32] } : State).sym.length ∧
    (0#32).toNat < ({ State.reset with st := [5#32], inbox := [.rdb 2#2 0#32] } : State).st.length ∧
    ({ State.reset with inbox := [.rdb 3#2 9#32] } : State).inbox = .rdb 3#2 9#32 :: [] := by decide

/-- The last address and the first that does not exist, of each memory. -/
theorem witness_HostAccessesOneByte :
    (({ State.reset with inbox := [.writePay 536870910 1#8] } : State).inbox = .writePay 536870910 1#8 :: [] ∧
      536870910 < 536870911) ∧
    ({ State.reset with inbox := [.writePay 536870911 1#8] } : State).inbox = .writePay 536870911 1#8 :: [] ∧
    ({ State.reset with inbox := [.writeImg 536870910 1#8] } : State).inbox = .writeImg 536870910 1#8 :: [] ∧
    ({ State.reset with inbox := [.writeImg 536870911 1#8] } : State).inbox = .writeImg 536870911 1#8 :: [] ∧
    ({ State.reset with inbox := [.readPay 536870910] } : State).inbox = .readPay 536870910 :: [] ∧
    ({ State.reset with inbox := [.readImg 536870910] } : State).inbox = .readImg 536870910 :: [] := by decide

theorem witness_CanonicalMemoriesReadingAlikeAreEqual :
    Memory.wf [(2, 1#8)] ∧ Memory.wf (memOf [0#8, 0#8, 1#8]) ∧
    ∀ a, Memory.read [(2, 1#8)] a = (memOf [0#8, 0#8, 1#8]).read a :=
  ⟨by decide, by decide, fun _ => rfl⟩

theorem witness_LdpayLoadsThePayload :
    [0xB2#8, 0x00#8].length ≤ 536870911 ∧
    ({ State.reset with inbox := scriptLdpay [0xB2#8, 0x00#8] } : State).inbox = scriptLdpay [0xB2#8, 0x00#8] := by
  decide

/-! ### Witnesses: the bit packer -/

theorem witness_PackSpellsThePayload :
    ({ State.reset with plen := 536870911#32 } : State).plen.toNat ≤ 536870911 ∧
    ({ State.reset with plen := 536870912#32 } : State).plen.toNat > 536870911 := by decide

theorem witness_ChunkSplitsAndPads :
    (1 = ({ State.reset with nbits := 1#32 } : State).nbits.toNat ∧ 1 ≤ 8) ∧
    (8 = ({ State.reset with nbits := 8#32 } : State).nbits.toNat ∧ 1 ≤ 8) ∧
    0 = ({ State.reset with nbits := 0#32 } : State).nbits.toNat ∧
    (9 = ({ State.reset with nbits := 9#32 } : State).nbits.toNat ∧ 9 > 8) := by decide

/-- `TOTAL_BITS` exactly what the symbols hold with the largest symbol; then each of the ways to be refused. -/
theorem witness_UnchunkTruncatesToTotalBits :
    (let s : State := { State.reset with nbits := 3#32, totalBits := 6#32, sym := [7#8, 0#8] }
     3 = s.nbits.toNat ∧ s.totalBits.toNat ≤ s.sym.length * 3 ∧ ∀ y ∈ s.sym, y.toNat < 2 ^ 3) ∧
    (let s : State := { State.reset with nbits := 3#32, totalBits := 7#32, sym := [7#8, 0#8] }
     s.sym.length * 3 < s.totalBits.toNat) ∧
    (let s : State := { State.reset with nbits := 3#32, sym := [8#8] }
     ∃ y ∈ s.sym, 2 ^ 3 ≤ y.toNat) ∧
    0 = ({ State.reset with nbits := 0#32 } : State).nbits.toNat ∧
    (9 = ({ State.reset with nbits := 9#32 } : State).nbits.toNat ∧ 9 > 8) := by decide

theorem witness_UnpackWritesWholeBytes :
    (let s : State := { State.reset with bs := List.replicate 8 true }
     s.bs.length < 2 ^ 32 ∧ s.bs.length % 8 = 0) ∧
    (let s : State := { State.reset with bs := List.replicate 9 true }
     s.bs.length < 2 ^ 32 ∧ s.bs.length % 8 ≠ 0) := by decide

theorem witness_PackAndUnpackAreInverse : (List.replicate 16 true).length % 8 = 0 := by decide

/-- A truncated payload of 12 bits: `UNCHUNK` completes `Ok`. -/
theorem witness_LengthsOfTheFourFunctions :
    let s : State := { State.reset with nbits := 3#32, totalBits := 12#32, sym := [5#8, 4#8, 4#8, 1#8] }
    (∃ t, exec .unchunk s = .next t ∧ t.err = ResultCode.ok.code ∧ ∃ u, exec .unpack t = .next u) := by
  refine ⟨_, rfl, by decide, ?_⟩
  exact ⟨_, rfl⟩

theorem witness_ChunkedSymbolsPassUnchunk :
    let s : State := { State.reset with nbits := 3#32, bs := bitsOf [1, 0, 1, 1] }
    (∃ t, exec .chunk s = .next t ∧ t.err = ResultCode.ok.code) ∧ (4#32).toNat ≤ s.bs.length :=
  ⟨exists_next (by decide), by decide⟩

/-! ### Witnesses: the site selector and the capacity validator -/

/-- The three variants at the largest legal `KIND`; then each way to be refused, at its edge. -/
theorem witness_OrderFillsTheSiteTable :
    (let s : State := { State.reset with height := 178956970#32, width := 1#32 }
     s.height.toNat * s.width.toNat * 3 ≤ 536870911 ∧ s.kind.toNat ≤ 2 ∧ s.kind = 0#32) ∧
    (let s : State := { State.reset with kind := 1#32, height := 2#32, width := 2#32 }
     s.height.toNat * s.width.toNat * 3 ≤ 536870911 ∧ s.kind.toNat ≤ 2 ∧ s.kind = 1#32) ∧
    (let s : State := { State.reset with kind := 2#32, height := 2#32, width := 2#32 }
     s.height.toNat * s.width.toNat * 3 ≤ 536870911 ∧ s.kind.toNat ≤ 2 ∧ s.kind = 2#32) ∧
    ({ State.reset with kind := 3#32 } : State).kind.toNat > 2 ∧
    (let s : State := { State.reset with height := 178956971#32, width := 1#32 }
     s.height.toNat * s.width.toNat * 3 > 536870911) := by decide

theorem witness_SiteSequencesAreDistinctIndices :
    plainCollab.Lawful ∧ ({ State.reset with height := 4#32, width := 4#32 } : State).elemCount ≤ 536870911 :=
  ⟨plainCollab_lawful, by decide⟩

theorem witness_SlotsPerVariant :
    plainCollab.Lawful ∧ ({ State.reset with height := 0#32, width := 5#32 } : State).elemCount ≤ 536870911 :=
  ⟨plainCollab_lawful, by decide⟩

theorem witness_OrderIsDeterministic :
    let s : State := { State.reset with height := 1#32, width := 1#32, img := [(1, 4#8)] }
    let s' : State := { s with plen := 9#32, img := [(1, 4#8), (3, 7#8)] }
    s'.height = s.height ∧ s'.width = s.width ∧ s'.lowThr = s.lowThr ∧ s'.highThr = s.highThr ∧ s'.seed = s.seed ∧
    SameImage s s' := by
  refine ⟨rfl, rfl, rfl, rfl, rfl, ?_⟩
  intro a ha
  have h : a < 3 := ha
  have : a = 0 ∨ a = 1 ∨ a = 2 := by omega
  rcases this with rfl | rfl | rfl <;> rfl

theorem witness_ElementIndexIsABijection :
    (3 < 4 ∧ 3 < 4 ∧ 2 < 3 ∧ elementIndex 4 3 3 2 = 47) ∧ 47 < 4 * 4 * 3 := by decide

theorem witness_ReferencePermutationIsLawful : 536870911 ≤ 536870911 := le_refl _

theorem witness_ValidateComparesLengthWithCapacity :
    (EffectiveWidth { State.reset with kind := 2#32, nbits := 8#32, st := [0#32] } 8) ∧
    EffectiveWidth { State.reset with kind := 1#32, nbits := 0#32 } 1 ∧
    (∀ n, ¬ EffectiveWidth { State.reset with kind := 3#32 } n) ∧
    (∀ n, ¬ EffectiveWidth { State.reset with kind := 2#32, nbits := 9#32 } n) ∧
    ({ State.reset with st := [0#32] } : State).st.length ≤ 536870911 := by
  refine ⟨.inr ⟨rfl, by decide, by decide, rfl⟩, .inl ⟨.inr rfl, rfl⟩, ?_, ?_, by decide⟩
  · rintro n (⟨h | h, -⟩ | ⟨h, -⟩) <;> exact absurd h (by decide)
  · rintro n (⟨h | h, -⟩ | ⟨-, -, h, -⟩) <;> exact absurd h (by decide)

/-- Equal lengths on both sides of the boundary; and a larger width for `PERM`. -/
theorem witness_CapacityIsMonotone :
    (let s : State := { State.reset with st := [0#32], bs := [true] }
     let s' : State := { s with bs := [] }
     s'.bs.length ≤ s.bs.length ∧ (∃ t, exec .validate s = .next t ∧ t.err = ResultCode.ok.code) ∧
     ∃ t', exec .validate s' = .next t') ∧
    (let s : State := { State.reset with bs := [true, false] }
     let s' : State := { s with bs := [true] }
     s'.bs.length ≤ s.bs.length ∧ (∃ t, exec .validate s = .next t) ∧
     ∃ t', exec .validate s' = .next t' ∧ t'.err = ResultCode.insufficientCapacity.code) ∧
    (let s : State := { State.reset with kind := 2#32, st := [0#32], bs := [true] }
     let s' : State := { s with nbits := 8#32 }
     s.nbits.toNat ≤ s'.nbits.toNat ∧ s'.nbits.toNat ≤ 8 ∧
     (∃ t, exec .validate s = .next t ∧ t.err = ResultCode.ok.code) ∧ ∃ t', exec .validate s' = .next t') :=
  ⟨⟨by decide, exists_next (by decide), ⟨_, rfl⟩⟩, ⟨by decide, ⟨_, rfl⟩, exists_next (by decide)⟩,
    by decide, by decide, exists_next (by decide), ⟨_, rfl⟩⟩

/-! ### Witnesses: the codec -/

/-- One byte into a 1 by 3 image: one site is left over. -/
def byteEmbed : State := { State.reset with height := 1#32, width := 3#32, plen := 1#32, pay := [(0, 0xB2#8)] }

/-- Two bytes into the same image do not fit. -/
def longEmbed : State := { byteEmbed with plen := 2#32 }

theorem byteEmbed_ok : ∃ t, exec .embed byteEmbed = .next t ∧ t.err = ResultCode.ok.code :=
  exists_next (by decide)

theorem longEmbed_fails : ∃ t, exec .embed longEmbed = .next t ∧ t.err = ResultCode.insufficientCapacity.code :=
  exists_next (by decide)

/-- Equality of required and available bits, one site too few, and each illegal operand at its edge. -/
theorem witness_EmbedWritesSymbolsIntoSites :
    (let s : State := { State.reset with height := 1#32, width := 8#32, plen := 3#32 }
     kindOf s.kind = some .seq ∧ EffectiveWidth s 1 ∧ s.height.toNat * s.width.toNat * 3 ≤ 536870911 ∧
     s.plen.toNat ≤ 536870911 ∧ 8 * s.plen.toNat ≤ (siteSequence Config.collab .seq s).length * 1) ∧
    (let s : State := { State.reset with height := 1#32, width := 7#32, plen := 3#32 }
     kindOf s.kind = some .seq ∧ EffectiveWidth s 1 ∧
     (siteSequence Config.collab .seq s).length * 1 < 8 * s.plen.toNat) ∧
    (∀ n, ¬ EffectiveWidth { State.reset with kind := 2#32, nbits := 0#32 } n) ∧
    ({ State.reset with height := 178956971#32, width := 1#32 } : State).elemCount > 536870911 ∧
    ({ State.reset with plen := 536870912#32 } : State).plen.toNat > 536870911 := by
  refine ⟨⟨rfl, .inl ⟨.inl rfl, rfl⟩, by decide, by decide, by decide⟩, ⟨rfl, .inl ⟨.inl rfl, rfl⟩, by decide⟩, ?_,
    by decide, by decide⟩
  rintro n (⟨h | h, -⟩ | ⟨-, h, -⟩) <;> exact absurd h (by decide)

theorem witness_SampleUpdateAndReadBitByBit :
    (1 ≤ 1 ∧ (1#8).toNat < 2 ^ 1) ∧ (8 ≤ 8 ∧ (255#8).toNat < 2 ^ 8) ∧ (1#8).toNat < 2 := by decide

theorem witness_EmbedIsolatesLowBits :
    EffectiveWidth byteEmbed 1 ∧ ∃ t, exec .embed byteEmbed = .next t ∧ t.err = ResultCode.ok.code :=
  ⟨.inl ⟨.inl rfl, rfl⟩, byteEmbed_ok⟩

theorem witness_FailedEmbedLeavesTheImage :
    ∃ t, exec .embed longEmbed = .next t ∧ t.err ≠ ResultCode.ok.code := by
  obtain ⟨t, h, he⟩ := longEmbed_fails
  exact ⟨t, h, by rw [he]; decide⟩

theorem witness_FailedEmbedLeavesScratch :
    (∃ t, exec .embed { longEmbed with kind := 3#32 } = .next t ∧ t.err = ResultCode.badOperand.code) ∧
    ∃ t, exec .embed longEmbed = .next t ∧ t.err = ResultCode.insufficientCapacity.code :=
  ⟨exists_next (by decide), longEmbed_fails⟩

theorem witness_EmbedReturnsTotalBits :
    (∃ t, exec .embed byteEmbed = .next t ∧ t.err = ResultCode.ok.code) ∧
    ∃ t, exec .embed longEmbed = .next t ∧ t.err ≠ ResultCode.ok.code :=
  ⟨byteEmbed_ok, witness_FailedEmbedLeavesTheImage⟩

/-- As many symbols as sites, one more, a length that is no multiple of 8, and an illegal operand. -/
theorem witness_ExtractReadsSymbolsFromSites :
    (let s : State := { State.reset with height := 1#32, width := 8#32, totalBits := 24#32 }
     kindOf s.kind = some .seq ∧ EffectiveWidth s 1 ∧
     (s.totalBits.toNat + 1 - 1) / 1 ≤ (siteSequence Config.collab .seq s).length ∧ s.totalBits.toNat % 8 = 0) ∧
    (let s : State := { State.reset with height := 1#32, width := 8#32, totalBits := 25#32 }
     kindOf s.kind = some .seq ∧ EffectiveWidth s 1 ∧
     (siteSequence Config.collab .seq s).length < (s.totalBits.toNat + 1 - 1) / 1) ∧
    (let s : State := { State.reset with height := 1#32, width := 8#32, totalBits := 23#32 }
     kindOf s.kind = some .seq ∧ EffectiveWidth s 1 ∧
     (s.totalBits.toNat + 1 - 1) / 1 ≤ (siteSequence Config.collab .seq s).length ∧ s.totalBits.toNat % 8 ≠ 0) ∧
    (∀ n, ¬ EffectiveWidth { State.reset with kind := 3#32 } n) ∧
    ({ State.reset with height := 178956971#32, width := 1#32 } : State).elemCount > 536870911 := by
  refine ⟨⟨rfl, .inl ⟨.inl rfl, rfl⟩, by decide, by decide⟩, ⟨rfl, .inl ⟨.inl rfl, rfl⟩, by decide⟩,
    ⟨rfl, .inl ⟨.inl rfl, rfl⟩, by decide, by decide⟩, ?_, by decide⟩
  rintro n (⟨h | h, -⟩ | ⟨h, -⟩) <;> exact absurd h (by decide)

theorem witness_FailedExtractLeavesThePayload :
    (∃ t, exec .extract { byteEmbed with kind := 3#32 } = .next t ∧ t.err = ResultCode.badOperand.code) ∧
    (∃ t, exec .extract { byteEmbed with totalBits := 10#32 } = .next t ∧
      t.err = ResultCode.insufficientSites.code) ∧
    ∃ t, exec .extract { byteEmbed with totalBits := 9#32 } = .next t ∧
      t.err = ResultCode.malformedBitstream.code :=
  ⟨exists_next (by decide), exists_next (by decide), exists_next (by decide)⟩

/-- Embed one byte, wipe the payload, extract. -/
theorem witness_ExtractUndoesEmbed :
    ∃ t s', exec .embed byteEmbed = .next t ∧ t.err = ResultCode.ok.code ∧ kindOf byteEmbed.kind = some .seq ∧
      EffectiveWidth byteEmbed 1 ∧ SameSelection byteEmbed s' ∧ s'.totalBits = t.totalBits ∧ SameImage t s' ∧
      s'.plen = 0#32 ∧
      (siteSequence Config.collab .seq s').take ((8 * byteEmbed.plen.toNat + 1 - 1) / 1) =
        (siteSequence Config.collab .seq byteEmbed).take ((8 * byteEmbed.plen.toNat + 1 - 1) / 1) := by
  obtain ⟨t, h, he⟩ := byteEmbed_ok
  refine ⟨t, { byteEmbed with totalBits := t.totalBits, img := t.img, plen := 0#32, pay := [] }, h, he, rfl,
    .inl ⟨.inl rfl, rfl⟩, ⟨rfl, fun _ => rfl, rfl, rfl, rfl, rfl, rfl⟩, rfl, fun _ _ => rfl, rfl, rfl⟩

/-- The same with the permuted selector at width 3. -/
theorem witness_RoundTripForEveryCollaborator :
    let s : State := { byteEmbed with kind := 2#32, nbits := 3#32 }
    ∃ t s', plainCollab.Lawful ∧ s.kind ≠ 1#32 ∧ embedWith plainCollab s = .next t ∧ t.err = ResultCode.ok.code ∧
      SameSelection s s' ∧ s'.totalBits = t.totalBits ∧ SameImage t s' := by
  intro s
  obtain ⟨t, h, he⟩ := exists_next (r := embedWith plainCollab s) (c := ResultCode.ok.code) (by decide)
  exact ⟨t, { s with totalBits := t.totalBits, img := t.img, plen := 0#32, pay := [] }, plainCollab_lawful,
    by decide, h, he, ⟨rfl, fun _ => rfl, rfl, rfl, rfl, rfl, rfl⟩, rfl, fun _ _ => rfl⟩

/-- Two states that differ in buffers, `CAP` and a byte of `PAY` past the payload. -/
theorem witness_EqualImagesInEqualImagesOut :
    let s' : State := { byteEmbed with bs := [true], cap := 5#32, pay := [(0, 0xB2#8), (1, 3#8)] }
    SameOperands byteEmbed s' ∧ (∀ i, i < byteEmbed.plen.toNat → s'.pay.read i = byteEmbed.pay.read i) ∧
    SameImage byteEmbed s' ∧ (∃ t, exec .embed byteEmbed = .next t) ∧ ∃ t', exec .embed s' = .next t' := by
  refine ⟨⟨rfl, rfl, rfl, rfl, rfl, rfl, rfl, rfl, rfl⟩, ?_, fun _ _ => rfl, ⟨_, rfl⟩, ⟨_, rfl⟩⟩
  intro i hi
  have h : i < 1 := hi
  have : i = 0 := by omega
  subst this
  rfl

/-- Once with `Ok`, once with too few sites. -/
theorem witness_ExtractDependsOnItsOperandsAlone :
    (let s : State := { byteEmbed with totalBits := 8#32 }
     let s' : State := { s with plen := 4#32, sym := [1#8] }
     SameSelection s s' ∧ s'.totalBits = s.totalBits ∧ SameImage s s' ∧ (∃ t', exec .extract s' = .next t') ∧
     ∃ t, exec .extract s = .next t ∧ t.err = ResultCode.ok.code) ∧
    (let s : State := { byteEmbed with totalBits := 16#32 }
     ∃ t, exec .extract s = .next t ∧ t.err = ResultCode.insufficientSites.code) :=
  ⟨⟨⟨rfl, fun _ => rfl, rfl, rfl, rfl, rfl, rfl⟩, rfl, fun _ _ => rfl, ⟨_, rfl⟩, exists_next (by decide)⟩,
    exists_next (by decide)⟩

theorem witness_EmbedIsThePrimitivesThenTheWrites :
    (∃ t, exec .embed byteEmbed = .next t ∧ t.err = ResultCode.ok.code) ∧ EffectiveWidth byteEmbed 1 ∧
    byteEmbed.nbits = 1#32 ∧ byteEmbed.kind ≠ 2#32 := ⟨byteEmbed_ok, .inl ⟨.inl rfl, rfl⟩, rfl, by decide⟩

theorem witness_ExtractIsThePrimitivesAroundTheReads :
    let s : State := { byteEmbed with totalBits := 8#32 }
    (∃ t, exec .extract s = .next t ∧ t.err = ResultCode.ok.code) ∧ EffectiveWidth s 1 ∧ s.nbits = 1#32 :=
  ⟨exists_next (by decide), .inl ⟨.inl rfl, rfl⟩, rfl⟩

/-- With the permuted selector, whatever permutation comes out: 24 bits into 3 samples of width 8 exactly fit. -/
theorem witness_WrongKeyStillCompletes :
    let s : State := { State.reset with
      kind := 2#32, nbits := 8#32, height := 1#32, width := 1#32, plen := 3#32, seed := 7#32 }
    ∃ t s' : State, s.kind = 2#32 ∧ exec .embed s = .next t ∧ t.err = ResultCode.ok.code ∧ s'.kind = 2#32 ∧
      s'.height = s.height ∧ s'.width = s.width ∧ s'.nbits = s.nbits ∧ s'.totalBits = t.totalBits ∧
      s'.seed ≠ s.seed := by
  intro s
  have hlen : (siteSequence Config.collab .perm s).length = 3 := by
    have h := (perm_isPerm s.seed s.elemCount).length_eq
    rw [List.length_range] at h
    exact h
  have hsel : s.selector = some (.perm, 8) := by decide
  rcases embedWith_cases Config.collab s with ⟨k, n, hk, -, -, -, h⟩ | ⟨k, n, hk, -, -, hf, -⟩ | ⟨h, -⟩
  · exact ⟨_, { s with totalBits := _, seed := 8#32 }, rfl, h, State.record_err _ _ _, rfl, rfl, rfl, rfl, rfl,
      show (8#32 : Word) ≠ 7#32 by decide⟩
  · exfalso
    rw [hsel] at hk
    injection hk with e
    injection e with e1 e2
    subst e1 e2
    rw [hlen] at hf
    exact absurd hf (by decide)
  · exfalso
    rcases h with h | h | h
    · rw [hsel] at h; exact absurd h (by decide)
    · exact absurd h (by decide)
    · exact absurd h (by decide)

theorem witness_OnlyEmbedWritesTheImage :
    Instr.pack ≠ .embed ∧ ∃ t, exec .pack byteEmbed = .next t := ⟨by decide, _, rfl⟩

/-! ### Witnesses: the whole machine -/

/-- Each cause of the table of rule R167 at its edge, and the legal neighbour. -/
theorem witness_BadOperandExactlyForTheListedCauses :
    BadOperandCause { State.reset with plen := 536870912#32 } .pack ∧ ¬ BadOperandCause State.reset .pack ∧
    BadOperandCause { State.reset with nbits := 9#32 } .chunk ∧ ¬ BadOperandCause State.reset .chunk ∧
    BadOperandCause { State.reset with totalBits := 1#32 } .unchunk ∧ ¬ BadOperandCause State.reset .unpack ∧
    BadOperandCause { State.reset with kind := 3#32 } .order ∧
    BadOperandCause { State.reset with kind := 2#32, nbits := 0#32 } .validate ∧
    BadOperandCause { State.reset with plen := 536870912#32 } .embed ∧
    BadOperandCause { State.reset with height := 178956971#32, width := 1#32 } .extract := by
  refine ⟨?_, ?_, ?_, ?_, ?_, ?_, ?_, ?_, ?_, ?_⟩ <;> simp [BadOperandCause, State.reset]

theorem witness_CommandsWriteOnlyWhatTheyOwn :
    ∃ t, exec .order byteEmbed = .next t := ⟨_, rfl⟩

/-- A state that meets the invariant with buffers and memories that are not empty, and a step from it. -/
def busyState : State := { byteEmbed with
  st := [0#32, 1#32], sym := [3#8], bs := [true], cap := 2#32, inbox := [.cmd 0x10#8] }

theorem witness_EveryStepKeepsTheInvariant : Inv busyState ∧ ∃ t, step busyState = .next t := by
  refine ⟨⟨by decide, by decide, by decide, by decide, by decide, by decide, ?_, by decide, by decide, by decide, ?_,
    by decide, ?_⟩, ⟨_, rfl⟩⟩
  · simp [busyState, Config.maxElems]
  · simp [busyState, byteEmbed, Memory.within, Config.maxPlen]
  · simp [busyState, byteEmbed, Memory.within, State.reset]

end Sys2Proof.Tests
end

section
/-!
The state family (`10_state.md`): what a command has made of the state when it records its result, what serving one
transaction can do, and from these the invariant and the other statements about the state.
-/

namespace Sys2Proof.Machine

open Sys2Proof.Claims

/-! ### Commands, said once -/

/-- `CommandBody s i u`: the command `i`, run from `s`, has made `u` of it when it records its result. Either nothing was
written, or one of the writing paths was taken; each carries the operand checks that guard it. -/
inductive CommandBody (s : State) : Instr → State → Prop
  | unchanged (i : Instr) : CommandBody s i s
  | packed (legal : s.payloadLegal = true) : CommandBody s .pack s.packPayload
  | chunked (legal : widthLegal s.nbits = true) : CommandBody s .chunk (s.setSym (chunkBits s.bs s.nbits.toNat))
  | unchunked (legal : unchunkLegal s) :
      CommandBody s .unchunk (s.setBs (unchunkBits s.sym s.nbits.toNat s.totalBits.toNat))
  | unpacked : CommandBody s .unpack s.storePayload
  | ordered {k : Kind} (selected : kindOf s.kind = some k) (image : s.imageLegal = true) :
      CommandBody s .order (s.loadSites Config.collab k)
  | validated {k : Kind} {n : Nat} (selected : s.selector = some (k, n)) :
      CommandBody s .validate (s.setCap (s.capacityBits n))
  | embedPrepared {k : Kind} {n : Nat} (selected : s.selector = some (k, n)) (image : s.imageLegal = true)
      (payload : s.payloadLegal = true) : CommandBody s .embed (s.embedPrepare Config.collab k n)
  | embedded {k : Kind} {n : Nat} (selected : s.selector = some (k, n)) (image : s.imageLegal = true)
      (payload : s.payloadLegal = true) :
      CommandBody s .embed ((s.embedPrepare Config.collab k n).embedWrite n)
  | sitesLoaded {k : Kind} {n : Nat} (selected : s.selector = some (k, n)) (image : s.imageLegal = true) :
      CommandBody s .extract (s.loadSites Config.collab k)
  | symbolsRead {k : Kind} {n : Nat} (selected : s.selector = some (k, n)) (image : s.imageLegal = true) :
      CommandBody s .extract ((s.loadSites Config.collab k).extractBits n (ceilDiv s.totalBits.toNat n))
  | extracted {k : Kind} {n : Nat} (selected : s.selector = some (k, n)) (image : s.imageLegal = true) :
      CommandBody s .extract
        ((s.loadSites Config.collab k).extractBits n (ceilDiv s.totalBits.toNat n)).storePayload

/-- Every command takes one of the paths of `CommandBody` and then records a result that is not `IllegalCommand`. -/
theorem exec_body (i : Instr) (s : State) :
    ∃ (c : ResultCode) (u : State), c ≠ .illegalCommand ∧ CommandBody s i u ∧
      exec i s = .next (u.record (encode i) c) := by
  cases i with
  | pack =>
    rcases execPack_cases s with ⟨legal, h⟩ | ⟨-, h⟩
    · exact ⟨_, _, by decide, .packed legal, h⟩
    · exact ⟨_, _, by decide, .unchanged _, h⟩
  | chunk =>
    rcases execChunk_cases s with ⟨legal, h⟩ | ⟨-, h⟩
    · exact ⟨_, _, by decide, .chunked legal, h⟩
    · exact ⟨_, _, by decide, .unchanged _, h⟩
  | unchunk =>
    rcases execUnchunk_cases s with ⟨legal, h⟩ | ⟨-, h⟩
    · exact ⟨_, _, by decide, .unchunked legal, h⟩
    · exact ⟨_, _, by decide, .unchanged _, h⟩
  | unpack =>
    rcases execUnpack_cases s with ⟨-, h⟩ | ⟨-, h⟩
    · exact ⟨_, _, by decide, .unpacked, h⟩
    · exact ⟨_, _, by decide, .unchanged _, h⟩
  | order =>
    rcases orderWith_cases Config.collab s with ⟨k, selected, image, h⟩ | ⟨-, h⟩
    · exact ⟨_, _, by decide, .ordered selected image, h⟩
    · exact ⟨_, _, by decide, .unchanged _, h⟩
  | validate =>
    rcases execValidate_cases s with ⟨k, n, selected, h⟩ | ⟨-, h⟩
    · refine ⟨_, _, ?_, .validated selected, h⟩
      unfold validateCapacity
      split <;> decide
    · exact ⟨_, _, by decide, .unchanged _, h⟩
  | embed =>
    rcases embedWith_cases Config.collab s with
      ⟨k, n, selected, image, payload, -, h⟩ | ⟨k, n, selected, image, payload, -, h⟩ | ⟨-, h⟩
    · exact ⟨_, _, by decide, .embedded selected image payload, h⟩
    · exact ⟨_, _, by decide, .embedPrepared selected image payload, h⟩
    · exact ⟨_, _, by decide, .unchanged _, h⟩
  | extract =>
    rcases extractWith_cases Config.collab s with
      ⟨k, n, selected, image, -, -, h⟩ | ⟨k, n, selected, image, -, h⟩ | ⟨k, n, selected, image, -, -, h⟩ | ⟨-, h⟩
    · exact ⟨_, _, by decide, .extracted selected image, h⟩
    · exact ⟨_, _, by decide, .sitesLoaded selected image, h⟩
    · exact ⟨_, _, by decide, .symbolsRead selected image, h⟩
    · exact ⟨_, _, by decide, .unchanged _, h⟩

/-- No command touches the transactions that wait. -/
theorem CommandBody.inbox_eq {s u : State} {i : Instr} (h : CommandBody s i u) : u.inbox = s.inbox := by
  cases h <;> simp

/-- The eight opcodes are the command words of the eight commands. -/
theorem mem_commandWords {w : Byte} : w ∈ commandWords ↔ ∃ i, encode i = w := by
  constructor
  · intro h
    simp only [commandWords, List.mem_cons, List.not_mem_nil, or_false] at h
    rcases h with h | h | h | h | h | h | h | h
    exacts [⟨.pack, h.symm⟩, ⟨.chunk, h.symm⟩, ⟨.unchunk, h.symm⟩, ⟨.unpack, h.symm⟩, ⟨.order, h.symm⟩,
      ⟨.validate, h.symm⟩, ⟨.embed, h.symm⟩, ⟨.extract, h.symm⟩]
  · rintro ⟨i, rfl⟩
    cases i <;> decide

/-- A command word runs its command's body and records a result other than `IllegalCommand`; a reserved word records
`IllegalCommand` and nothing else (rules R63, R66). -/
theorem issueCommand_cases (w : Byte) (s : State) :
    (∃ (i : Instr) (c : ResultCode) (u : State), w ∈ commandWords ∧ c ≠ .illegalCommand ∧ CommandBody s i u ∧
      issueCommand w s = .next (u.record w c)) ∨
    (w ∉ commandWords ∧ issueCommand w s = .next (s.record w .illegalCommand)) := by
  by_cases hw : w ∈ commandWords
  · obtain ⟨i, rfl⟩ := mem_commandWords.1 hw
    obtain ⟨c, u, hc, body, h⟩ := exec_body i s
    exact .inl ⟨i, c, u, hw, hc, body, by simpa [issueCommand] using h⟩
  · refine .inr ⟨hw, ?_⟩
    cases hd : decodeWord w with
    | ok i => exact absurd (mem_commandWords.2 ⟨i, encode_of_decodeWord hd⟩) hw
    | error e => simp [issueCommand, hd, conclude]

/-! ### The invariant, operation by operation -/

/-- The collaborators the machine evaluates meet the law of rules R106 and R109. -/
theorem collab_lawful : Config.collab.Lawful :=
  ⟨fun seed m _ => perm_isPerm seed m, length_edgeDetect⟩

theorem State.elemCount_le {s : State} (image : s.imageLegal = true) : s.elemCount ≤ Config.maxElems :=
  of_decide_eq_true image

/-- Every item of the site table of a legal image is an element index of that image. -/
theorem siteTable_lt {C : Collab} (hC : C.Lawful) {s : State} (hs : s.elemCount ≤ Config.maxElems) {k : Kind}
    {e : Word} (he : e ∈ (siteSequence C k s).map (BitVec.ofNat Config.xlen)) : e.toNat < s.elemCount := by
  refine siteSequence_lt hC hs (k := k) ?_
  rw [← siteTable_toNat hC hs k]
  exact List.mem_map_of_mem he

namespace Inv

variable {s : State}

theorem setBs (h : Inv s) {b : List Bool} (hb : b.length < 2 ^ 32) : Inv (s.setBs b) :=
  { h with bitstreamFits := hb }

theorem setSym (h : Inv s) {y : List Byte} (hy : y.length < 2 ^ 32) : Inv (s.setSym y) :=
  { h with symbolsFit := hy }

theorem setCap (h : Inv s) {c : Nat} (hc : c ≤ 8 * Config.maxElems) : Inv (s.setCap c) :=
  { h with capFits := (Nat.mod_le c _).trans hc }

theorem setPay (h : Inv s) {m : Memory} (hm : m.wf) (hx : m.within Config.maxPlen) : Inv (s.setPay m) :=
  { h with payCanonical := hm, payExtent := hx }

theorem setImg (h : Inv s) {m : Memory} (hm : m.wf) (hx : m.within Config.maxElems) : Inv (s.setImg m) :=
  { h with imgCanonical := hm, imgExtent := hx }

theorem setTotalBits (h : Inv s) (n : Nat) : Inv (s.setTotalBits n) := { h with }

theorem setPlen (h : Inv s) (l : Nat) : Inv (s.setPlen l) := { h with }

theorem setReply (h : Inv s) (r : Option Reply) : Inv { s with reply := r } := { h with }

theorem setInbox (h : Inv s) (ts : List Txn) : Inv { s with inbox := ts } := { h with }

/-- A recorded result is one of the six codes and leaves the reserved fields of `STATUS` 0. -/
theorem record (h : Inv s) (w : Byte) (c : ResultCode) : Inv (s.record w c) :=
  { h with
    errCode := by rw [State.record_err]; exact c.code_le
    reservedLow := statusWord_reservedLow c w
    reservedHigh := statusWord_reservedHigh c w }

/-- A legal image gives a site table of distinct addresses, at most `MAX_ELEMS` of them (rule R101). -/
theorem loadSites (h : Inv s) {C : Collab} (hC : C.Lawful) (image : s.imageLegal = true) (k : Kind) :
    Inv (s.loadSites C k) :=
  have hs := State.elemCount_le image
  { h with
    sitesFit := by simpa using (siteSequence_length_le hC hs k).trans hs
    sitesExist := fun _ he => (siteTable_lt hC hs he).trans_le hs
    sitesDistinct := siteTable_distinct hC hs k }

theorem packPayload (h : Inv s) (legal : s.payloadLegal = true) : Inv s.packPayload := by
  have hp : s.plen.toNat ≤ 536870911 := of_decide_eq_true legal
  exact h.setBs (by rw [length_packBits, State.payload, Memory.length_readRange]; omega)

/-- `BLEN` below 2^32 spells at most `MAX_PLEN` bytes, so every byte stored has an address in `PAY`. -/
theorem storePayload (h : Inv s) : Inv s.storePayload := by
  have hb := h.bitstreamFits
  refine (h.setPay (Memory.writeFrom_wf h.payCanonical _ _)
    (Memory.writeFrom_within h.payExtent _ ?_)).setPlen _
  rw [length_unpackBits, Config.maxPlen]
  omega

/-- At a width of at most 8 the capacity of a site table in range is in the range of `CAP` (rule R29). -/
theorem capacityBits_le (h : Inv s) {n : Nat} (hn : n ≤ 8) : s.capacityBits n ≤ 8 * Config.maxElems := by
  rw [Nat.mul_comm]
  exact Nat.mul_le_mul h.sitesFit hn

theorem embedPrepare (h : Inv s) {C : Collab} (hC : C.Lawful) {k : Kind} {n : Nat} (hn : n ≤ 8)
    (image : s.imageLegal = true) (payload : s.payloadLegal = true) : Inv (s.embedPrepare C k n) := by
  have hsites : Inv (s.packPayload.loadSites C k) := (h.packPayload payload).loadSites hC image k
  exact hsites.setCap (hsites.capacityBits_le hn)

/-- Chunking into symbols of at least one bit yields no more symbols than bits. -/
theorem setSym_chunkBits (h : Inv s) {n : Nat} (hn : 1 ≤ n) : Inv (s.setSym (chunkBits s.bs n)) :=
  h.setSym (by rw [length_chunkBits]; exact (ceilDiv_le_self _ hn).trans_lt h.bitstreamFits)

/-- `EMBED` writes at addresses listed in `ST`, which all exist. -/
theorem embedWrite (h : Inv s) {n : Nat} (hn : 1 ≤ n) : Inv (s.embedWrite n) := by
  refine ((h.setSym_chunkBits hn).setImg (writeSymbols_wf h.imgCanonical n _)
    (writeSymbols_within h.imgExtent n _ ?_)).setTotalBits _
  rintro ⟨e, y⟩ hp
  exact h.sitesExist e (List.of_mem_zip hp).1

/-- `EXTRACT` reads at most `TOTAL_BITS` symbols and spells exactly `TOTAL_BITS` bits. -/
theorem extractBits (h : Inv s) {n count : Nat} (hc : count ≤ s.totalBits.toNat) : Inv (s.extractBits n count) := by
  have ht := Word.toNat_lt s.totalBits
  refine (h.setSym ?_).setBs ?_
  · rw [State.readSymbols, List.length_map, List.length_take]; omega
  · simpa using ht

/-- Every path of every command keeps the invariant. -/
theorem commandBody (h : Inv s) {i : Instr} {u : State} (body : CommandBody s i u) : Inv u := by
  cases body with
  | unchanged => exact h
  | packed legal => exact h.packPayload legal
  | chunked legal => exact h.setSym_chunkBits (of_decide_eq_true legal).1
  | unchunked legal => exact h.setBs (by simpa using Word.toNat_lt s.totalBits)
  | unpacked => exact h.storePayload
  | ordered selected image => exact h.loadSites collab_lawful image _
  | validated selected =>
    obtain ⟨-, -, hn, -⟩ := selector_some selected
    exact h.setCap (h.capacityBits_le hn)
  | embedPrepared selected image payload =>
    obtain ⟨-, -, hn, -⟩ := selector_some selected
    exact h.embedPrepare collab_lawful hn image payload
  | embedded selected image payload =>
    obtain ⟨-, hpos, hn, -⟩ := selector_some selected
    exact (h.embedPrepare collab_lawful hn image payload).embedWrite hpos
  | sitesLoaded selected image => exact h.loadSites collab_lawful image _
  | symbolsRead selected image =>
    obtain ⟨-, hpos, -⟩ := selector_some selected
    exact (h.loadSites collab_lawful image _).extractBits (ceilDiv_le_self _ hpos)
  | extracted selected image =>
    obtain ⟨-, hpos, -⟩ := selector_some selected
    exact ((h.loadSites collab_lawful image _).extractBits (ceilDiv_le_self _ hpos)).storePayload

theorem issueCommand (h : Inv s) {w : Byte} {t : State} (ht : issueCommand w s = .next t) : Inv t := by
  rcases issueCommand_cases w s with ⟨i, c, u, -, -, body, hu⟩ | ⟨-, hu⟩
  · obtain rfl : u.record w c = t := by simpa [hu] using ht
    exact (h.commandBody body).record w c
  · obtain rfl : s.record w .illegalCommand = t := by simpa [hu] using ht
    exact h.record w _

theorem writeRegister (h : Inv s) (r : BitVec 5) (v : Word) : Inv (writeRegister r v s) := by
  rw [writeRegister_frame]
  exact { h with }

theorem readBuffer (h : Inv s) (buf : BitVec 2) (i : Word) : Inv (readBuffer buf i s) := by
  obtain ⟨v, n, hb⟩ := readBuffer_frame buf i s
  rw [hb]
  exact { h with }

/-- The state right after reset meets the invariant: `STATUS` is 0 and every buffer and memory is empty. -/
theorem reset : Inv State.reset where
  errCode := by decide
  reservedLow := by decide
  reservedHigh := by decide
  bitstreamFits := by decide
  symbolsFit := by decide
  sitesFit := by decide
  sitesExist := by simp [State.reset]
  sitesDistinct := List.nodup_nil
  capFits := by decide
  payCanonical := by decide
  payExtent := by simp [State.reset, Memory.within]
  imgCanonical := by decide
  imgExtent := by simp [State.reset, Memory.within]

/-- The reset input brings the registers and buffers of the reset state and keeps the memories. -/
theorem hostReset (h : Inv s) : Inv s.hostReset :=
  { reset with
    payCanonical := h.payCanonical
    payExtent := h.payExtent
    imgCanonical := h.imgCanonical
    imgExtent := h.imgExtent }

theorem serve (h : Inv s) {x : Txn} {t : State} (ht : serve x s = .next t) : Inv t := by
  cases x with
  | cmd w => exact h.issueCommand ht
  | wr r v => cases ht; exact (h.writeRegister r v).setReply none
  | rd r => cases ht; exact h.setReply _
  | rdb buf i => cases ht; exact h.readBuffer buf i
  | writePay a v =>
    rw [serve_writePay] at ht
    split at ht <;> cases ht
    exact (h.setPay (Memory.write_wf h.payCanonical a v) (Memory.write_within h.payExtent ‹_› v)).setReply none
  | readPay a =>
    rw [serve_readPay] at ht
    split at ht <;> cases ht
    exact h.setReply _
  | writeImg a v =>
    rw [serve_writeImg] at ht
    split at ht <;> cases ht
    exact (h.setImg (Memory.write_wf h.imgCanonical a v) (Memory.write_within h.imgExtent ‹_› v)).setReply none
  | readImg a =>
    rw [serve_readImg] at ht
    split at ht <;> cases ht
    exact h.setReply _
  | reset => cases ht; exact h.hostReset

end Inv

/-- Settles O53: a step is idle, or serves one transaction, and every transaction keeps the invariant. -/
theorem everyStepKeepsTheInvariant : Obligations.EveryStepKeepsTheInvariant := by
  intro s t h ht
  rcases step_cases s with ⟨-, hidle⟩ | ⟨x, rest, -, hserve⟩
  · obtain rfl : s = t := by simpa [hidle] using ht
    exact h
  · exact (h.setInbox rest).serve (hserve ▸ ht)

/-- Settles O52. -/
theorem resetStateMeetsTheInvariant : Obligations.ResetStateMeetsTheInvariant := Inv.reset

/-! ### What serving a transaction can do -/

/-- Whatever the word, what waits behind it stays and a result is recorded, `IllegalCommand` exactly for a reserved
word. -/
theorem issueCommand_records (w : Byte) (s : State) :
    ∃ (c : ResultCode) (u : State), issueCommand w s = .next (u.record w c) ∧ u.inbox = s.inbox ∧
      (c = .illegalCommand ↔ w ∉ commandWords) := by
  rcases issueCommand_cases w s with ⟨i, c, u, hw, hc, body, h⟩ | ⟨hw, h⟩
  · exact ⟨c, u, h, body.inbox_eq, by simp [hw, hc]⟩
  · exact ⟨.illegalCommand, s, h, rfl, by simp [hw]⟩

/-- A transaction that names an address that exists is served, and the transactions behind it stay. -/
theorem serve_of_wf {x : Txn} (hx : x.wf = true) (s : State) : ∃ t, serve x s = .next t ∧ t.inbox = s.inbox := by
  cases x with
  | cmd w =>
    obtain ⟨c, u, h, hinbox, -⟩ := issueCommand_records w s
    exact ⟨_, h, hinbox⟩
  | wr r v => exact ⟨_, rfl, by rw [writeRegister_frame]⟩
  | rd r => exact ⟨_, rfl, rfl⟩
  | rdb buf i =>
    obtain ⟨v, n, h⟩ := readBuffer_frame buf i s
    exact ⟨_, rfl, by rw [h]⟩
  | writePay a v => exact ⟨_, (serve_writePay a v s).trans (if_pos (of_decide_eq_true hx)), rfl⟩
  | readPay a => exact ⟨_, (serve_readPay a s).trans (if_pos (of_decide_eq_true hx)), rfl⟩
  | writeImg a v => exact ⟨_, (serve_writeImg a v s).trans (if_pos (of_decide_eq_true hx)), rfl⟩
  | readImg a => exact ⟨_, (serve_readImg a s).trans (if_pos (of_decide_eq_true hx)), rfl⟩
  | reset => exact ⟨_, rfl, rfl⟩

/-- A transaction that names a missing address faults (log entry 4). -/
theorem serve_of_not_wf {x : Txn} (hx : x.wf = false) (s : State) : ∃ r, serve x s = .fault r := by
  cases x with
  | cmd _ | wr _ _ | rd _ | rdb _ _ | reset => simp [Txn.wf] at hx
  | writePay a v => exact ⟨_, (serve_writePay a v s).trans (if_neg (of_decide_eq_false hx))⟩
  | readPay a => exact ⟨_, (serve_readPay a s).trans (if_neg (of_decide_eq_false hx))⟩
  | writeImg a v => exact ⟨_, (serve_writeImg a v s).trans (if_neg (of_decide_eq_false hx))⟩
  | readImg a => exact ⟨_, (serve_readImg a s).trans (if_neg (of_decide_eq_false hx))⟩

/-- Settles O7: the word runs a command's body or is reserved, and what is then recorded holds the code and the word. -/
theorem commandRecordsResultAndWord : Obligations.CommandRecordsResultAndWord := by
  intro s w rest hin
  obtain ⟨c, u, h, hinbox, hcode⟩ := issueCommand_records w { s with inbox := rest }
  have herr := State.record_err u w c
  exact ⟨u.record w c, c, (step_cons hin).trans h, rfl, herr, herr ▸ c.code_le, statusWord_lastop c w,
    statusWord_reservedLow c w, statusWord_reservedHigh c w, hcode, hinbox⟩

/-- Settles O8: the address a host access names decides whether the step completes or faults. -/
theorem onlyMissingHostAddressesStop : Obligations.OnlyMissingHostAddressesStop := by
  constructor
  · intro s hs
    rcases step_cases s with ⟨-, h⟩ | ⟨x, rest, hin, h⟩
    · exact ⟨s, h, hs⟩
    · have hall : ∀ y ∈ x :: rest, y.wf = true := hin ▸ hs
      obtain ⟨t, ht, (hrest : t.inbox = rest)⟩ := serve_of_wf (hall x List.mem_cons_self) { s with inbox := rest }
      exact ⟨t, h.trans ht, fun y hy => hall y (List.mem_cons_of_mem x (hrest ▸ hy))⟩
  · intro s x rest hin hx
    rw [step_cons hin]
    exact serve_of_not_wf hx _

/-! ### The register port -/

/-- The register port finds a register under its own number only. -/
theorem regOfNumber_eq_some {r : BitVec 5} {n : Reg} : regOfNumber r = some n ↔ r = n.number := by
  constructor
  · intro h
    have := List.find?_some h
    exact (eq_of_beq this).symm
  · rintro rfl
    exact regOfNumber_number n

/-- A number without a register is above the operand registers (rules R33, R64). -/
theorem lt_toNat_of_regOfNumber_none {r : BitVec 5} (h : regOfNumber r = none) : 8 < r.toNat := by
  revert r
  decide

theorem Reg.number_injective {m n : Reg} (h : m.number = n.number) : m = n := by
  simpa using congrArg regOfNumber h

/-- The table of rule R64, number by number, is what `RD` returns. -/
theorem registerTable_eq_readRegister (s : State) (r : BitVec 5) : registerTable s r = readRegister r s := by
  obtain ⟨⟨n, hn⟩⟩ := r
  interval_cases n <;> rfl

/-- A host write is seen in the operand register it names and in no other register (rule R33). -/
theorem readReg_writeReg (s : State) (m n : Reg) (v : Word) :
    (s.writeReg n v).readReg m = if m = n ∧ n.number.toNat ≤ 8 then v else s.readReg m := by
  cases n <;> cases m <;> rfl

theorem readRegister_writeRegister (s : State) (q r : BitVec 5) (v : Word) :
    readRegister q (writeRegister r v s) = if q = r ∧ r.toNat ≤ 8 then v else readRegister q s := by
  cases hr : regOfNumber r with
  | none =>
    have h8 := lt_toNat_of_regOfNumber_none hr
    rw [if_neg (by omega)]
    simp [writeRegister, hr]
  | some n =>
    obtain rfl := regOfNumber_eq_some.1 hr
    cases hq : regOfNumber q with
    | none =>
      have hne : q ≠ n.number := by
        rintro rfl
        simp at hq
      simp [readRegister, hq, hne]
    | some m =>
      obtain rfl := regOfNumber_eq_some.1 hq
      have hmn : m.number = n.number ↔ m = n := ⟨Reg.number_injective, congrArg _⟩
      simpa [readRegister, writeRegister, hmn] using readReg_writeReg s m n v

/-- Settles O12: both directions of the register port go through the table. -/
theorem registerPortFollowsItsTable : Obligations.RegisterPortFollowsItsTable := by
  constructor
  · intro s r v rest hin
    refine ⟨_, step_cons hin, fun q => ?_, ?_⟩
    · have h := readRegister_writeRegister { s with inbox := rest } q r v
      rwa [← registerTable_eq_readRegister, ← registerTable_eq_readRegister] at h
    · exact congrArg (fun u : State => { u with reply := none }) (writeRegister_frame r v { s with inbox := rest })
  · intro s r rest hin
    rw [step_cons hin, registerTable_eq_readRegister]
    rfl

/-- Settles O10: the reset state, read at each of the 32 register numbers. -/
theorem resetLeavesTheStatedValues : Obligations.ResetLeavesTheStatedValues := by
  refine ⟨by decide, ?_, ?_, rfl, rfl, rfl⟩
  · decide
  · decide

/-! ### The host's byte accesses and the canonical form -/

/-- Settles O14: below the bound a write is one `Memory.write` and a read one `Memory.read`; a write beyond it
faults. -/
theorem hostAccessesOneByte : Obligations.HostAccessesOneByte := by
  refine ⟨?_, ?_, ?_, ?_⟩
  · intro s a v rest hin
    rw [step_cons hin, serve_writePay]
    exact ⟨fun ha => ⟨_, if_pos ha, fun b => Memory.read_write s.pay a b v, rfl⟩, fun ha => if_neg (not_lt.2 ha)⟩
  · intro s a v rest hin
    rw [step_cons hin, serve_writeImg]
    exact ⟨fun ha => ⟨_, if_pos ha, fun b => Memory.read_write s.img a b v, rfl⟩, fun ha => if_neg (not_lt.2 ha)⟩
  · intro s a rest hin ha
    rw [step_cons hin, serve_readPay]
    exact if_pos ha
  · intro s a rest hin ha
    rw [step_cons hin, serve_readImg]
    exact if_pos ha

/-- An address that is not listed reads as unwritten. -/
theorem Memory.read_of_not_listed {m : Memory} {a : Nat} (h : ∀ c ∈ m, c.1 ≠ a) : m.read a = Memory.unwritten := by
  induction m with
  | nil => rfl
  | cons c rest ih =>
    rw [Memory.read, if_neg (h c List.mem_cons_self)]
    exact ih fun d hd => h d (List.mem_cons_of_mem c hd)

/-- A canonical memory lists exactly the bytes that read as something else than unwritten. -/
theorem Memory.wf.mem_iff_read {m : Memory} (hm : m.wf) (a : Nat) (v : Byte) :
    (a, v) ∈ m ↔ m.read a = v ∧ v ≠ Memory.unwritten := by
  induction m with
  | nil => simp [Memory.read, eq_comm]
  | cons c rest ih =>
    obtain ⟨b, w⟩ := c
    obtain ⟨hrising, hwritten⟩ := hm
    obtain ⟨hb, hrest⟩ := List.pairwise_cons.1 hrising
    have ih := ih ⟨hrest, fun d hd => hwritten d (List.mem_cons_of_mem _ hd)⟩
    have hw : w ≠ Memory.unwritten := hwritten (b, w) List.mem_cons_self
    by_cases hab : b = a
    · subst hab
      have hnot : (b, v) ∉ rest := fun h => Nat.lt_irrefl b (hb _ h)
      simp only [Memory.read, if_true, List.mem_cons, hnot, or_false, Prod.mk.injEq, true_and]
      exact ⟨fun h => ⟨h.symm, h ▸ hw⟩, fun h => h.1.symm⟩
    · have hne : (a, v) ≠ (b, w) := fun h => hab (congrArg Prod.fst h).symm
      simp only [Memory.read, if_neg hab, List.mem_cons, hne, false_or, ih]

/-- Settles O15: two canonical memories that read alike list the same entries, both in rising order. -/
theorem canonicalMemoriesReadingAlikeAreEqual : Obligations.CanonicalMemoriesReadingAlikeAreEqual := by
  intro m m' hm hm' hread
  have hmem : ∀ c : Host.Cell, c ∈ m ↔ c ∈ m' := by
    rintro ⟨a, v⟩
    rw [hm.mem_iff_read, hm'.mem_iff_read, hread]
  have hperm : m.Perm m' := (List.perm_ext_iff_of_nodup (hm.1.imp fun h e => by simp [e] at h)
    (hm'.1.imp fun h e => by simp [e] at h)).2 hmem
  exact hperm.eq_of_pairwise (fun a b _ _ h h' => absurd h (Nat.lt_asymm h')) hm.1 hm'.1

/-! ### What a command reads -/

/-- Settles O9: every path of a command ends in `State.record`, which overwrites both fields, and nothing before it
reads either. -/
theorem noCommandReadsStatus : Obligations.NoCommandReadsStatus := by
  intro i s w r
  cases i <;> rfl

/-- The symbols `EXTRACT` reads depend on the site sequence of a legal image and on the samples of that image. -/
theorem readSymbols_loadSites_congr {C : Collab} (hC : C.Lawful) {s s' : State} (image : s.imageLegal = true) {k : Kind}
    (hsites : siteSequence C k s' = siteSequence C k s) (himg : SameImage s s') (n count : Nat) :
    (s'.loadSites C k).readSymbols n count = (s.loadSites C k).readSymbols n count := by
  simp only [State.readSymbols, State.loadSites_st, State.loadSites_img, hsites]
  refine List.map_congr_left fun e he => ?_
  rw [himg _ (siteTable_lt hC (State.elemCount_le image) (List.mem_of_mem_take he))]

/-- The result code of `EXTRACT` as a function of the state: the checks of rule R136 in their order. -/
def extractCode (C : Collab) (s : State) : ResultCode :=
  match s.selector with
  | none => .badOperand
  | some (k, n) =>
    if s.imageLegal then
      if (siteSequence C k s).length < ceilDiv s.totalBits.toNat n then .insufficientSites
      else if s.totalBits.toNat % 8 ≠ 0 then .malformedBitstream
      else .ok
    else .badOperand

/-- What an `EXTRACT` leaves, by its code: `extractCode` is the code it records; with `Ok` the payload is what the
symbols spell; otherwise `PLEN` and `PAY` are kept (rules R136, R138). -/
theorem extractWith_leaves {C : Collab} {s t : State} (h : extractWith C s = .next t) :
    t.err = (extractCode C s).code ∧
    (extractCode C s = .ok → ∃ k n, s.selector = some (k, n) ∧ s.imageLegal = true ∧
      t.plen.toNat = s.totalBits.toNat / 8 ∧
      ∀ i < s.totalBits.toNat / 8, t.pay.read i = groupValue (unchunkBits
        ((s.loadSites C k).readSymbols n (ceilDiv s.totalBits.toNat n)) n s.totalBits.toNat) 8 i) ∧
    (extractCode C s ≠ .ok → t.plen = s.plen ∧ t.pay = s.pay) := by
  rcases extractWith_cases C s with
    ⟨k, n, hsel, image, hcount, h8, hs⟩ | ⟨k, n, hsel, image, hcount, hs⟩ |
    ⟨k, n, hsel, image, hcount, h8, hs⟩ | ⟨hbad, hs⟩
  · have hcode : extractCode C s = .ok := by simp [extractCode, hsel, image, hcount, h8]
    have ht := Word.toNat_lt s.totalBits
    cases hs.symm.trans h
    refine ⟨by rw [State.record_err, hcode], fun _ => ⟨k, n, hsel, image, ?_, fun i hi => ?_⟩, absurd hcode⟩
    · simp only [State.record_plen, State.storePayload_plen, State.extractBits_bs, length_unchunkBits,
        State.loadSites_totalBits, BitVec.toNat_ofNat, Config.xlen]
      omega
    · simp only [State.record_pay, read_storePayload, State.extractBits_bs, length_unchunkBits,
        State.loadSites_totalBits, if_pos hi]
  · have hcode : extractCode C s = .insufficientSites := by simp [extractCode, hsel, image, hcount]
    cases hs.symm.trans h
    exact ⟨by rw [State.record_err, hcode], by simp [hcode], fun _ => ⟨rfl, rfl⟩⟩
  · have hcode : extractCode C s = .malformedBitstream := by simp [extractCode, hsel, image, hcount, h8]
    cases hs.symm.trans h
    exact ⟨by rw [State.record_err, hcode], by simp [hcode], fun _ => ⟨rfl, rfl⟩⟩
  · have hcode : extractCode C s = .badOperand := by
      rcases hbad with hsel | image
      · simp [extractCode, hsel]
      · cases hsel : s.selector <;> simp [extractCode, hsel, image]
    cases hs.symm.trans h
    exact ⟨by rw [State.record_err, hcode], by simp [hcode], fun _ => ⟨rfl, rfl⟩⟩

/-- Settles O45: the checks and the symbols of an `EXTRACT` are the same functions of the selection, `TOTAL_BITS` and
the image. -/
theorem extractDependsOnItsOperandsAlone : Obligations.ExtractDependsOnItsOperandsAlone := by
  intro s s' t t' ⟨hkind, hnbits, hheight, hwidth, hseed, hlow, hhigh⟩ htotal himg ht ht'
  have hselector : s'.selector = s.selector := State.selector_congr hkind hnbits
  have hlegal : s'.imageLegal = s.imageLegal := State.imageLegal_congr hheight hwidth
  have hsites (k : Kind) : siteSequence Config.collab k s' = siteSequence Config.collab k s :=
    siteSequence_congr _ k hheight hwidth hseed hlow hhigh himg
  have hcode : extractCode Config.collab s' = extractCode Config.collab s := by
    simp only [extractCode, hselector, hlegal, hsites, htotal]
  obtain ⟨herr, hok, hfail⟩ := extractWith_leaves ht
  obtain ⟨herr', hok', hfail'⟩ := extractWith_leaves ht'
  have hiff : t.err = ResultCode.ok.code ↔ extractCode Config.collab s = .ok :=
    herr ▸ ⟨ResultCode.code_injective, congrArg _⟩
  refine ⟨by rw [herr, herr', hcode], fun h => ?_, fun h => ?_⟩
  · obtain ⟨k, n, hsel, image, hplen, hpay⟩ := hok (hiff.1 h)
    obtain ⟨k', n', hsel', -, hplen', hpay'⟩ := hok' (hcode.trans (hiff.1 h))
    obtain ⟨rfl, rfl⟩ : k = k' ∧ n = n' := by simpa [hselector, hsel] using hsel'
    rw [htotal] at hplen' hpay'
    refine ⟨BitVec.eq_of_toNat_eq (hplen'.trans hplen.symm), fun i hi => ?_⟩
    rw [hplen] at hi
    rw [hpay i hi, hpay' i hi, readSymbols_loadSites_congr collab_lawful image (hsites k) himg]
  · have hne := fun hc => h (hiff.2 hc)
    obtain ⟨hplen, hpay⟩ := hfail hne
    obtain ⟨hplen', hpay'⟩ := hfail' (hcode ▸ hne)
    exact ⟨hplen, hpay, hplen', hpay'⟩

end Sys2Proof.Machine
end

section
/-!
The memory family (`20_memory.md`): the element index and the carrier address (rule R42), and that each is the inverse
of the other over the addresses of an image.
-/

namespace Sys2Proof.Machine

theorem elementIndex_div_three (w row col : Nat) {channel : Nat} (h : channel < 3) :
    elementIndex w row col channel / 3 = row * w + col := by
  rw [elementIndex_eq]
  omega

theorem elementIndex_mod_three (w row col : Nat) {channel : Nat} (h : channel < 3) :
    elementIndex w row col channel % 3 = channel := by
  rw [elementIndex_eq]
  omega

/-- The carrier address is the pixel index split into row and column, and the channel within the pixel. -/
theorem carrierOf_eq_pixel (w e : Nat) : carrierOf w e = (e / 3 / w, e / 3 % w, e % 3) := by
  rw [carrierOf_eq, Nat.div_div_eq_div_mul]

theorem elementIndex_lt {h w row col channel : Nat} (hrow : row < h) (hcol : col < w) (hchannel : channel < 3) :
    elementIndex w row col channel < h * w * 3 := by
  have hpixel : row * w + col < h * w :=
    calc row * w + col < (row + 1) * w := by rw [Nat.succ_mul]; omega
      _ ≤ h * w := Nat.mul_le_mul_right w hrow
  rw [elementIndex_eq]
  omega

theorem carrierOf_elementIndex {w row col channel : Nat} (hcol : col < w) (hchannel : channel < 3) :
    carrierOf w (elementIndex w row col channel) = (row, col, channel) := by
  have hrow : (row * w + col) / w = row := by
    rw [Nat.mul_comm, Nat.mul_add_div (by omega), Nat.div_eq_of_lt hcol, Nat.add_zero]
  have hcolumn : (row * w + col) % w = col := by
    rw [Nat.mul_add_mod_self_right, Nat.mod_eq_of_lt hcol]
  rw [carrierOf_eq_pixel, elementIndex_div_three w row col hchannel, elementIndex_mod_three w row col hchannel, hrow,
    hcolumn]

theorem elementIndex_carrierOf (w e : Nat) :
    elementIndex w (carrierOf w e).1 (carrierOf w e).2.1 (carrierOf w e).2.2 = e := by
  rw [carrierOf_eq_pixel, elementIndex_eq, Nat.div_add_mod', Nat.div_add_mod']

/-- An index below `M` has an address in range; the image then has columns, so `e / 3 % w` is one of them. -/
theorem carrierOf_in_range {h w e : Nat} (he : e < h * w * 3) :
    (carrierOf w e).1 < h ∧ (carrierOf w e).2.1 < w ∧ (carrierOf w e).2.2 < 3 := by
  have hpixel : e / 3 < h * w := by omega
  have hw : 0 < w := Nat.pos_of_ne_zero fun hw => by simp [hw] at hpixel
  rw [carrierOf_eq_pixel]
  exact ⟨(Nat.div_lt_iff_lt_mul hw).2 hpixel, Nat.mod_lt _ hw, Nat.mod_lt _ (by decide)⟩

/-- Settles O29: the index is the pixel index and the channel in base 3, the pixel index the row and column in base
`WIDTH`. -/
theorem elementIndexIsABijection : Obligations.ElementIndexIsABijection :=
  ⟨fun _ w row col _ hrow hcol hchannel => ⟨elementIndex_lt hrow hcol hchannel,
      carrierOf_elementIndex hcol hchannel, elementIndex_div_three w row col hchannel⟩,
    fun _ w e he =>
      have ⟨hrow, hcol, hchannel⟩ := carrierOf_in_range he
      ⟨hrow, hcol, hchannel, elementIndex_carrierOf w e⟩⟩

end Sys2Proof.Machine
end

section
/-!
The encoding family (`30_encoding.md`): the decoder against the encoder, the command port with legal and reserved words,
the buffer port, the script that loads a payload, and what each command may write.
-/

namespace Sys2Proof

/-- A byte sequence decodes to what its first word decodes to, and the other bytes are left over (rule R69). -/
theorem decode_cons_eq_ok {w : Byte} {rest rest' : List Byte} {i : Instr} :
    decode (w :: rest) = .ok (i, rest') ↔ decodeWord w = .ok i ∧ rest = rest' := by
  rw [decode]
  cases decodeWord w with
  | ok j => simp
  | error e => simp

/-- A command word numbered as the opcode table numbers its bits is the word itself. -/
@[simp] theorem tableByte_toNat (w : Byte) : tableByte 8 w.toNat = w := by
  rw [tableByte, Nat.mod_eq_of_lt w.isLt, BitVec.ofNat_toNat, BitVec.setWidth_eq]

namespace Machine

open Sys2Proof.Claims

/-! ### What a command may write -/

namespace CommandBody

variable {s u : State} {i : Instr}

/-- No command writes a configuration register or the model's count of free values. -/
theorem configuration_eq (h : CommandBody s i u) :
    u.kind = s.kind ∧ u.nbits = s.nbits ∧ u.height = s.height ∧ u.width = s.width ∧ u.seed = s.seed ∧
    u.lowThr = s.lowThr ∧ u.highThr = s.highThr ∧ u.freeCount = s.freeCount := by
  cases h <;> simp

theorem totalBits_img_eq (h : CommandBody s i u) (hembed : i ≠ .embed) :
    u.totalBits = s.totalBits ∧ u.img = s.img := by
  cases h with
  | embedPrepared | embedded => exact absurd rfl hembed
  | _ => simp

theorem plen_pay_eq (h : CommandBody s i u) (hunpack : i ≠ .unpack) (hextract : i ≠ .extract) :
    u.plen = s.plen ∧ u.pay = s.pay := by
  cases h with
  | unpacked => exact absurd rfl hunpack
  | sitesLoaded | symbolsRead | extracted => exact absurd rfl hextract
  | _ => simp

theorem cap_eq (h : CommandBody s i u) (hvalidate : i ≠ .validate) (hembed : i ≠ .embed) : u.cap = s.cap := by
  cases h with
  | validated => exact absurd rfl hvalidate
  | embedPrepared | embedded => exact absurd rfl hembed
  | _ => simp

theorem bs_eq (h : CommandBody s i u) (hpack : i ≠ .pack) (hunchunk : i ≠ .unchunk) (hembed : i ≠ .embed)
    (hextract : i ≠ .extract) : u.bs = s.bs := by
  cases h with
  | packed => exact absurd rfl hpack
  | unchunked => exact absurd rfl hunchunk
  | embedPrepared | embedded => exact absurd rfl hembed
  | sitesLoaded | symbolsRead | extracted => exact absurd rfl hextract
  | _ => simp

theorem sym_eq (h : CommandBody s i u) (hchunk : i ≠ .chunk) (hembed : i ≠ .embed) (hextract : i ≠ .extract) :
    u.sym = s.sym := by
  cases h with
  | chunked => exact absurd rfl hchunk
  | embedPrepared | embedded => exact absurd rfl hembed
  | sitesLoaded | symbolsRead | extracted => exact absurd rfl hextract
  | _ => simp

theorem st_eq (h : CommandBody s i u) (horder : i ≠ .order) (hembed : i ≠ .embed) (hextract : i ≠ .extract) :
    u.st = s.st := by
  cases h with
  | ordered => exact absurd rfl horder
  | embedPrepared | embedded => exact absurd rfl hembed
  | sitesLoaded | symbolsRead | extracted => exact absurd rfl hextract
  | _ => simp

end CommandBody

/-- Settles O51: a command is one of the paths of `CommandBody`, and recording the result writes `STATUS` and the reply
only. -/
theorem commandsWriteOnlyWhatTheyOwn : Obligations.CommandsWriteOnlyWhatTheyOwn := by
  intro i s t ht
  obtain ⟨c, u, -, body, hu⟩ := exec_body i s
  cases hu.symm.trans ht
  obtain ⟨hkind, hnbits, hheight, hwidth, hseed, hlow, hhigh, hfree⟩ := body.configuration_eq
  exact ⟨hkind, hnbits, hheight, hwidth, hseed, hlow, hhigh, body.inbox_eq, hfree, body.totalBits_img_eq,
    body.plen_pay_eq, body.cap_eq, body.bs_eq, body.sym_eq, body.st_eq⟩

/-! ### The buffer port -/

/-- What `RDB` returns where the selected buffer has an item. -/
theorem reply_readBuffer {s : State} {buf : BitVec 2} {i v : Word} (h : bufferItem buf i.toNat s = some v) :
    (readBuffer buf i s).reply = some (.value v) := by
  simp [readBuffer, h]

theorem bufferItem_bs {s : State} {i : Nat} (h : i < s.bs.length) :
    bufferItem 0#2 i s = some (BitVec.ofNat 32 s.bs[i].toNat) := by
  simp [bufferItem, h]

theorem bufferItem_sym {s : State} {i : Nat} (h : i < s.sym.length) :
    bufferItem 1#2 i s = some (s.sym[i].setWidth 32) := by
  simp [bufferItem, h]

theorem bufferItem_st {s : State} {i : Nat} (h : i < s.st.length) : bufferItem 2#2 i s = some s.st[i] := by
  simp [bufferItem, h]

theorem bufferItem_reserved (s : State) (i : Nat) : bufferItem 3#2 i s = some 0#32 := rfl

/-- Settles O13: the value returned is the item the select finds, and zero-extension keeps its number. -/
theorem bufferPortReadsTheItem : Obligations.BufferPortReadsTheItem := by
  intro s buf i rest hin
  obtain ⟨v, n, hread⟩ := readBuffer_frame buf i { s with inbox := rest }
  have hvalue {x : Word} (hx : bufferItem buf i.toNat { s with inbox := rest } = some x) : v = x := by
    simpa [hread] using reply_readBuffer hx
  refine ⟨readBuffer buf i { s with inbox := rest }, v, step_cons hin, by rw [hread], ?_, ?_, ?_, ?_⟩
  · rintro rfl h
    rw [hvalue (bufferItem_bs h), BitVec.toNat_ofNat, Nat.mod_eq_of_lt]
    exact lt_of_le_of_lt (Bool.toNat_le _) (by decide)
  · rintro rfl h
    rw [hvalue (bufferItem_sym h), BitVec.toNat_setWidth_of_le (by decide)]
  · rintro rfl h
    exact hvalue (bufferItem_st h)
  · rintro rfl
    exact hvalue (bufferItem_reserved _ _)

/-! ### Loading a payload -/

theorem runSteps_succ_of_next {s t : State} (h : step s = .next t) (k : Nat) : runSteps (k + 1) s = runSteps k t := by
  rw [runSteps, h]

/-- Byte writes to rising addresses from `a` and then a write of `PLEN`, served one per step, are one run of memory
writes and one register write (rule R72). -/
theorem runSteps_writePay_wrPlen {s : State} {a : Nat} {bytes : List Byte} {v : Word}
    (hin : s.inbox = bytes.mapIdx (fun i b => .writePay (a + i) b) ++ [scriptWr .plen v])
    (hfits : a + bytes.length ≤ Config.maxPlen) :
    runSteps (bytes.length + 1) s =
      .next { s with inbox := [], reply := none, pay := s.pay.writeFrom a bytes, plen := v } := by
  induction bytes generalizing s a with
  | nil => exact runSteps_succ_of_next (step_cons hin) 0
  | cons b bytes ih =>
    rw [List.length_cons] at hfits
    rw [List.mapIdx_cons, List.cons_append] at hin
    have hstep := step_cons hin
    rw [serve_writePay, if_pos (by omega)] at hstep
    rw [List.length_cons, runSteps_succ_of_next hstep, ih (a := a + 1) ?_ (by omega)]
    · rfl
    · simp only [Nat.add_assoc, Nat.add_comm 1]

/-- Settles O16: `LDPAY` is the run of byte writes from address 0 and the write of `PLEN`. -/
theorem ldpayLoadsThePayload : Obligations.LdpayLoadsThePayload := by
  intro s bytes hlength hin
  have hfits : 0 + bytes.length ≤ Config.maxPlen := (Nat.zero_add _).trans_le hlength
  refine ⟨_, runSteps_writePay_wrPlen (by simpa [scriptLdpay] using hin) hfits, rfl, ?_, fun i h => ?_, fun a h => ?_⟩
  · simp only [BitVec.toNat_ofNat, Config.xlen]
    omega
  · simp [Memory.read_writeFrom, h]
  · simp [Memory.read_writeFrom, Nat.not_lt.2 h]

/-! ### The command port -/

/-- Settles O1: the word decodes to its command, and a decoder reads one word only. -/
theorem decodeOfEncodeIsTheCommand : Obligations.DecodeOfEncodeIsTheCommand :=
  fun i _ => decode_cons_eq_ok.2 ⟨decodeWord_encode i, rfl⟩

/-- Settles O2: a word that decodes is the word of its command; one that does not is the word of none. -/
theorem everyCommandWordIsCommandOrReserved : Obligations.EveryCommandWordIsCommandOrReserved := by
  intro w
  cases hw : decodeWord w with
  | ok i =>
    have henc := encode_of_decodeWord hw
    exact .inl ⟨mem_commandWords.2 ⟨i, henc⟩, i, rfl, henc⟩
  | error e =>
    refine .inr ⟨fun hmem => ?_, congrArg _ (decodeWord_error hw)⟩
    obtain ⟨i, rfl⟩ := mem_commandWords.1 hmem
    simp at hw

/-- Settles O3: the eight words are those the encoder gives. -/
theorem opcodeMapWrittenOut : Obligations.OpcodeMapWrittenOut :=
  ⟨decodeWord_encode .pack, decodeWord_encode .chunk, decodeWord_encode .unchunk, decodeWord_encode .unpack,
    decodeWord_encode .order, decodeWord_encode .validate, decodeWord_encode .embed, decodeWord_encode .extract⟩

/-- A word that decodes runs its command (rule R63). -/
theorem issueCommand_of_decodeWord {w : Byte} {i : Instr} (h : decodeWord w = .ok i) (s : State) :
    issueCommand w s = exec i s := by
  rw [issueCommand, h]

/-- Settles O4: serving a command word runs the command it decodes to. -/
theorem stepRunsTheDecodedCommand : Obligations.StepRunsTheDecodedCommand := by
  constructor
  · intro s w rest i hin hdecode
    exact (step_cons hin).trans (issueCommand_of_decodeWord (decode_cons_eq_ok.1 hdecode).1 _)
  · intro s i
    have hin : (s.withFetchWord 8 (encode i).toNat).inbox = .cmd (encode i) :: s.inbox := by
      simp [State.withFetchWord]
    exact (step_cons hin).trans (issueCommand_of_decodeWord (decodeWord_encode i) _)

/-- The whole value of `STATUS` after a completion: `LASTOP` stands eight bits above `ERR` (rule R21). -/
theorem statusWord_toNat (c : ResultCode) (w : Byte) : (statusWord c w).toNat = w.toNat * 256 + c.code.toNat := by
  rw [statusWord, BitVec.toNat_append, ← Nat.shiftLeft_add_eq_or_of_lt c.code.isLt]
  have hhigh : (0#16 ++ w ++ 0#5).toNat = w.toNat * 32 := by
    rw [BitVec.toNat_append, BitVec.toNat_append]
    simp [Nat.shiftLeft_eq]
  rw [hhigh, Nat.shiftLeft_eq, Nat.mul_assoc]

/-- Settles O5: a reserved word records `IllegalCommand` on an otherwise unchanged state. -/
theorem reservedWordChangesStatusOnly : Obligations.ReservedWordChangesStatusOnly := by
  intro s w rest hin hreserved
  obtain ⟨-, hserve⟩ := (issueCommand_cases w { s with inbox := rest }).resolve_left
    fun ⟨_, _, _, hw, _⟩ => hreserved hw
  exact ⟨_, (step_cons hin).trans hserve, rfl, State.record_err _ w _, statusWord_lastop _ w, statusWord_toNat _ w⟩

end Machine

end Sys2Proof
end

section
/-!
The bit-packer family (`40_bitpacker.md`): the four functions undo each other, and what each of the commands `PACK`,
`CHUNK`, `UNCHUNK` and `UNPACK` leaves in every case it can end in.
-/

namespace Sys2Proof.Machine

/-! ### The four functions -/

/-- Item `8 i + j` of a packed byte sequence is bit `7 - j` of byte `i` (rule R80). -/
theorem getElem?_packBits {bytes : List Byte} {i j : Nat} (hi : i < bytes.length) (hj : j < 8) :
    (packBits bytes)[8 * i + j]? = some (bytes[i].getLsbD (7 - j)) := by
  have hdiv : (8 * i + j) / 8 = i := by omega
  have hmod : (8 * i + j) % 8 = j := by omega
  rw [List.getElem?_eq_getElem (by rw [length_packBits]; omega), getElem_packBits, hdiv, hmod,
    List.getD_eq_getElem _ _ hi]

theorem getElem?_unchunkBits {symbols : List Byte} {n t i : Nat} (hi : i < t) :
    (unchunkBits symbols n t)[i]? = some ((symbols.getD (i / n) 0#8).getLsbD (n - 1 - i % n)) := by
  rw [List.getElem?_eq_getElem (by simpa using hi), getElem_unchunkBits]

theorem getD_chunkBits {bits : List Bool} {n k : Nat} (hk : k < ceilDiv bits.length n) :
    (chunkBits bits n).getD k 0#8 = groupValue bits n k := by
  rw [List.getD_eq_getElem _ _ (by simpa using hk), getElem_chunkBits]

/-- Every symbol of a `chunk` fits its width (rule R92). -/
theorem lt_of_mem_chunkBits {bits : List Bool} {n : Nat} (hn : n ≤ 8) {y : Byte} (hy : y ∈ chunkBits bits n) :
    y.toNat < 2 ^ n := by
  obtain ⟨k, hk, rfl⟩ := List.getElem_of_mem hy
  rw [getElem_chunkBits]
  exact groupValue_lt bits hn k

/-- Bit `i` stands in group `i / n` at place `i % n`, and the right bit count cuts the padding off (rule R89). -/
theorem unchunkBits_chunkBits (bits : List Bool) {n : Nat} (hpos : 1 ≤ n) (hn : n ≤ 8) :
    unchunkBits (chunkBits bits n) n bits.length = bits := by
  refine List.ext_getElem (length_unchunkBits _ _ _) fun i _ hi => ?_
  rw [getElem_unchunkBits, getD_chunkBits (lt_ceilDiv hpos hi), groupValue_bit bits hn _ _ (Nat.mod_lt i hpos),
    Nat.div_add_mod', bitAt_of_lt hi]

/-- Packing is unchunking at width 8. -/
theorem packBits_eq_unchunkBits (bytes : List Byte) : packBits bytes = unchunkBits bytes 8 (8 * bytes.length) := rfl

/-- Unpacking whole bytes is chunking at width 8. -/
theorem unpackBits_eq_chunkBits {bits : List Bool} (h8 : bits.length % 8 = 0) : unpackBits bits = chunkBits bits 8 := by
  have hcount : ceilDiv bits.length 8 = bits.length / 8 := by unfold ceilDiv; omega
  rw [unpackBits, chunkBits, hcount]

/-- The group of eight bits that a byte was packed into spells the byte. -/
theorem groupValue_packBits {bytes : List Byte} {i : Nat} (hi : i < bytes.length) :
    groupValue (packBits bytes) 8 i = bytes[i] := by
  refine BitVec.eq_of_getLsbD_eq fun b hb => ?_
  have hb : b ≤ 7 := Nat.le_of_lt_succ hb
  have hj : 7 - b < 8 := by omega
  have hgroup := groupValue_bit (packBits bytes) le_rfl i (7 - b) hj
  rw [bitAt, Nat.mul_comm i 8, List.getD_eq_getElem?_getD, getElem?_packBits hi hj, Option.getD_some] at hgroup
  rwa [Nat.sub_sub_self hb] at hgroup

theorem unpackBits_packBits (bytes : List Byte) : unpackBits (packBits bytes) = bytes := by
  refine List.ext_getElem (by simp) fun i _ hi => ?_
  rw [getElem_unpackBits, groupValue_packBits hi]

theorem packBits_unpackBits {bits : List Bool} (h8 : bits.length % 8 = 0) : packBits (unpackBits bits) = bits := by
  have hlength : 8 * (unpackBits bits).length = bits.length := by rw [length_unpackBits]; omega
  rw [packBits_eq_unchunkBits, hlength, unpackBits_eq_chunkBits h8, unchunkBits_chunkBits bits (by decide) le_rfl]

/-- Settles O21: at its own length a bit sequence comes back, and so do the bytes it was packed from. -/
theorem paddingIsTruncatedAway : Obligations.PaddingIsTruncatedAway := by
  intro n hpos hn
  refine ⟨fun bits => unchunkBits_chunkBits bits hpos hn, fun bytes => ?_⟩
  rw [← length_packBits, unchunkBits_chunkBits _ hpos hn, unpackBits_packBits]

/-- Settles O22. -/
theorem packAndUnpackAreInverse : Obligations.PackAndUnpackAreInverse :=
  ⟨unpackBits_packBits, fun _ => packBits_unpackBits⟩

/-! ### The operand checks -/

theorem widthLegal_iff {v : Word} : widthLegal v = true ↔ 1 ≤ v.toNat ∧ v.toNat ≤ 8 := decide_eq_true_iff

theorem State.payloadLegal_iff {s : State} : s.payloadLegal = true ↔ s.plen.toNat ≤ 536870911 := decide_eq_true_iff

theorem symbolsFit_iff {symbols : List Byte} {n : Nat} :
    symbolsFit symbols n = true ↔ ∀ y ∈ symbols, y.toNat < 2 ^ n := by
  simp [symbolsFit]

/-- What the three checks of `UNCHUNK` let through, as rule R87 writes it. -/
theorem unchunkLegal_iff {s : State} : unchunkLegal s ↔
    (1 ≤ s.nbits.toNat ∧ s.nbits.toNat ≤ 8) ∧ s.totalBits.toNat ≤ s.sym.length * s.nbits.toNat ∧
      ∀ y ∈ s.sym, y.toNat < 2 ^ s.nbits.toNat := by
  rw [unchunkLegal, widthLegal_iff, symbolsFit_iff]

/-! ### The four commands -/

@[simp] theorem State.length_payload (s : State) : s.payload.length = s.plen.toNat := Memory.length_readRange _ _

theorem State.getElem_payload {s : State} {i : Nat} (hi : i < s.payload.length) : s.payload[i] = s.pay.read i :=
  Memory.getElem_readRange _ _ _ hi

/-- Settles O17: a legal `PLEN` packs the payload, any other ends the command before anything is written. -/
theorem packSpellsThePayload : Obligations.PackSpellsThePayload := by
  intro s
  rcases execPack_cases s with ⟨legal, h⟩ | ⟨illegal, h⟩
  · have hp := State.payloadLegal_iff.1 legal
    have hlength : (packBits s.payload).length = 8 * s.plen.toNat := by simp
    refine ⟨fun _ => ⟨_, h, rfl, hlength, ?_, fun i j hi hj => ?_⟩, fun hbad => absurd hp (not_le.2 hbad)⟩
    · rw [State.blen, State.record_bs, State.packPayload_bs, hlength, BitVec.toNat_ofNat, Config.two_pow_xlen]
      omega
    · rw [State.record_bs, State.packPayload_bs, getElem?_packBits (by simpa using hi) hj,
        State.getElem_payload]
  · have hp : ¬ s.plen.toNat ≤ 536870911 := fun hp => by simp [State.payloadLegal_iff.2 hp] at illegal
    exact ⟨fun hok => absurd hok hp, fun _ => h⟩

/-- Settles O18: a legal `NBITS` chunks `BS`, any other ends the command before anything is written. -/
theorem chunkSplitsAndPads : Obligations.ChunkSplitsAndPads := by
  rintro s n rfl
  rcases execChunk_cases s with ⟨legal, h⟩ | ⟨illegal, h⟩
  · obtain ⟨hpos, hn⟩ := widthLegal_iff.1 legal
    refine ⟨fun _ _ => ⟨_, h, rfl, length_chunkBits _ _, fun k hk j hj => ?_, fun y hy => lt_of_mem_chunkBits hn hy⟩,
      fun hbad => by omega⟩
    rw [State.record_sym, State.setSym_sym, length_chunkBits] at hk
    rw [State.record_sym, State.setSym_sym, getD_chunkBits hk, groupValue_bit s.bs hn k j hj, bitAt]
  · have hbad : ¬ (1 ≤ s.nbits.toNat ∧ s.nbits.toNat ≤ 8) := fun hw => by simp [widthLegal_iff.2 hw] at illegal
    exact ⟨fun hpos hn => absurd ⟨hpos, hn⟩ hbad, fun _ => h⟩

/-- Settles O19: the refused cases are exactly those in which one of the three checks fails. -/
theorem unchunkTruncatesToTotalBits : Obligations.UnchunkTruncatesToTotalBits := by
  rintro s n rfl
  rcases execUnchunk_cases s with ⟨legal, h⟩ | ⟨illegal, h⟩
  · obtain ⟨⟨hpos, hn⟩, hcount, hfit⟩ := unchunkLegal_iff.1 legal
    refine ⟨fun _ _ _ _ => ⟨_, h, rfl, length_unchunkBits _ _ _, ?_, fun i hi => getElem?_unchunkBits hi⟩, ?_⟩
    · rw [State.blen, State.record_bs, State.setBs_bs, length_unchunkBits, BitVec.ofNat_toNat, BitVec.setWidth_eq]
    · rintro (hzero | hwide | hfew | ⟨y, hy, hbig⟩)
      · omega
      · omega
      · omega
      · exact absurd (hfit y hy) (not_lt.2 hbig)
  · exact ⟨fun hpos hn hcount hfit => absurd (unchunkLegal_iff.2 ⟨⟨hpos, hn⟩, hcount, hfit⟩) illegal, fun _ => h⟩

/-- Settles O20: a whole number of bytes is stored from address 0, anything else writes no byte. -/
theorem unpackWritesWholeBytes : Obligations.UnpackWritesWholeBytes := by
  intro s hs
  rcases execUnpack_cases s with ⟨h8, h⟩ | ⟨h8, h⟩
  · refine ⟨fun _ => ⟨_, h, rfl, ?_, fun i j hi hj => ?_, fun a ha => ?_⟩, fun hbad => absurd h8 hbad⟩
    · rw [State.record_plen, State.storePayload_plen, BitVec.toNat_ofNat, Config.two_pow_xlen]
      omega
    · rw [State.record_pay, read_storePayload, if_pos hi, groupValue_bit s.bs le_rfl i j hj, bitAt, Nat.mul_comm]
    · rw [State.record_pay, read_storePayload, if_neg (not_lt.2 ha)]
  · exact ⟨fun hok => absurd hok h8, fun _ => h⟩

/-- The recorded code tells which result was recorded. -/
theorem State.record_err_eq_code_iff {s : State} {w : Byte} {c d : ResultCode} :
    (s.record w c).err = d.code ↔ c = d := by
  rw [State.record_err]
  exact ⟨ResultCode.code_injective, congrArg _⟩

/-- An `UNCHUNK` that completes `Ok` leaves exactly `TOTAL_BITS` bits in `BS` (rule R91). -/
theorem length_bs_of_unchunk_ok {s t : State} (h : exec .unchunk s = .next t) (hok : t.err = ResultCode.ok.code) :
    t.bs.length = s.totalBits.toNat := by
  rcases execUnchunk_cases s with ⟨-, hs⟩ | ⟨-, hs⟩
  · cases hs.symm.trans h
    exact length_unchunkBits _ _ _
  · cases hs.symm.trans h
    exact absurd (State.record_err_eq_code_iff.1 hok) (by decide)

/-- `UNPACK` ends with `MalformedBitstream` exactly when `BLEN` is no multiple of 8 (rule R88). -/
theorem unpack_err_malformed_iff {s t : State} (h : exec .unpack s = .next t) :
    t.err = ResultCode.malformedBitstream.code ↔ s.bs.length % 8 ≠ 0 := by
  rcases execUnpack_cases s with ⟨h8, hs⟩ | ⟨h8, hs⟩
  · cases hs.symm.trans h
    exact ⟨fun he => absurd (State.record_err_eq_code_iff.1 he) (by decide), fun hbad => absurd h8 hbad⟩
  · cases hs.symm.trans h
    exact ⟨fun _ => h8, fun _ => State.record_err _ _ _⟩

/-- Settles O23: the lengths of the four functions, the last two of which decide whether `UNPACK` is malformed. -/
theorem lengthsOfTheFourFunctions : Obligations.LengthsOfTheFourFunctions := by
  refine ⟨fun bytes => ?_, fun bits n _ _ => length_chunkBits bits n, length_unchunkBits, length_unpackBits, ?_⟩
  · rw [length_packBits, Nat.mul_mod_right]
  · intro s t u hunchunk hok hunpack
    rw [unpack_err_malformed_iff hunpack, length_bs_of_unchunk_ok hunchunk hok]

/-- The state a `CHUNK` that completes `Ok` leaves, and the width it was run at. -/
theorem chunk_ok {s t : State} (h : exec .chunk s = .next t) (hok : t.err = ResultCode.ok.code) :
    (1 ≤ s.nbits.toNat ∧ s.nbits.toNat ≤ 8) ∧
      t = (s.setSym (chunkBits s.bs s.nbits.toNat)).record (encode .chunk) .ok := by
  rcases execChunk_cases s with ⟨legal, hs⟩ | ⟨-, hs⟩
  · cases hs.symm.trans h
    exact ⟨widthLegal_iff.1 legal, rfl⟩
  · cases hs.symm.trans h
    exact absurd (State.record_err_eq_code_iff.1 hok) (by decide)

theorem unchunk_ok_of_legal {s : State} (legal : unchunkLegal s) :
    ∃ t, exec .unchunk s = .next t ∧ t.err = ResultCode.ok.code := by
  obtain ⟨-, h⟩ := (execUnchunk_cases s).resolve_right fun ⟨illegal, _⟩ => illegal legal
  exact ⟨_, h, State.record_err _ _ _⟩

/-- Settles O24: the symbols of a `CHUNK` fit its width, and they hold at least as many bits as `BS` did. -/
theorem chunkedSymbolsPassUnchunk : Obligations.ChunkedSymbolsPassUnchunk := by
  refine ⟨fun bits n _ hn y => lt_of_mem_chunkBits hn, fun s t v hchunk hok hv => ?_⟩
  obtain ⟨⟨hpos, hn⟩, rfl⟩ := chunk_ok hchunk hok
  have hcount : v.toNat ≤ (chunkBits s.bs s.nbits.toNat).length * s.nbits.toNat := by
    rw [length_chunkBits]
    exact hv.trans (le_ceilDiv_mul _ hpos)
  exact unchunk_ok_of_legal (unchunkLegal_iff.2 ⟨⟨hpos, hn⟩, hcount, fun _ => lt_of_mem_chunkBits hn⟩)

end Sys2Proof.Machine
end

section
/-!
The site-selector family (`41_site_selector.md`): the law of the machine's collaborators and of `PERM_REF`, what each
variant's site sequence lists, how long it is and what it depends on, and the command `ORDER`.
-/

namespace Sys2Proof.Machine

open Sys2Proof.Claims

/-! ### The collaborators and the reference permutation -/

/-- Settles O31: a proposed sequence that is no permutation is replaced by the identity, and the mask has one bit for
each pixel, so the law holds whatever the free values are. -/
theorem machineCollaboratorsAreLawful : Obligations.MachineCollaboratorsAreLawful := collab_lawful

/-- Within its bounds the model's swap is the library's, which only rearranges the list. -/
theorem swapAt_perm {pt : List Nat} {i j : Nat} (hi : i < pt.length) (hj : j < pt.length) :
    (swapAt pt i j).Perm pt := by
  have hswap : swapAt pt i j = pt.swap i j := by
    rw [List.swap_eq_of_lt hi hj, swapAt, List.getD_eq_getElem _ _ hi, List.getD_eq_getElem _ _ hj]
  exact hswap ▸ List.swap_perm pt i j

/-- Scaling a draw by `n` gives a position below `n` (rule R108). -/
theorem scaledDraw_lt (d : Seed) {n : Nat} (hn : 0 < n) : d.toNat * n / 2 ^ Config.seedW < n :=
  Nat.div_lt_of_lt_mul (Nat.mul_lt_mul_of_pos_right d.isLt hn)

/-- The shuffle swaps positions of the list only, as long as it starts at one of them. -/
theorem permRefLoop_perm (i : Nat) (seed : Seed) {pt : List Nat} (hi : i ≤ pt.length - 1) :
    (permRefLoop i seed pt).Perm pt := by
  induction i generalizing seed pt with
  | zero => exact List.Perm.refl pt
  | succ i ih =>
    have hj := scaledDraw_lt (permRefDraw seed) (Nat.succ_pos (i + 1))
    refine (ih _ ?_).trans (swapAt_perm ?_ ?_)
    · rw [length_swapAt]
      omega
    · omega
    · exact hj.trans_le (by omega)

/-- Settles O30: the shuffle starts at the last position of the identity sequence. -/
theorem referencePermutationIsLawful : Obligations.ReferencePermutationIsLawful := fun seed m _ =>
  permRefLoop_perm (m - 1) seed (by rw [List.length_range])

/-! ### The site sequences -/

/-- Settles O26: from the law of the collaborators, variant by variant. -/
theorem siteSequencesAreDistinctIndices : Obligations.SiteSequencesAreDistinctIndices := fun _ _ k hC hs =>
  ⟨fun _ he => siteSequence_lt hC hs he, siteSequence_nodup hC hs k, siteSequence_length_le hC hs k⟩

theorem length_maskSites {pixels : Nat} {mask : List Bool} (h : pixels ≤ mask.length) :
    (maskSites pixels mask).length = 3 * (mask.take pixels).count true := by
  induction pixels with
  | zero => rfl
  | succ p ih =>
    rw [maskSites_succ, List.length_append, ih (by omega), bitAt_of_lt h, ← List.take_concat_get' mask p h,
      List.count_append, Nat.mul_add]
    cases mask[p] <;> rfl

/-- Settles O27: a permutation is as long as the identity; a mask has one bit for each pixel, and each set bit gives
its pixel's three samples. -/
theorem slotsPerVariant : Obligations.SlotsPerVariant := by
  intro C s hC hs
  refine ⟨List.length_range, ?_, ?_⟩
  · have hmask := hC.2 (s.img.readRange s.elemCount) s.height.toNat s.width.toNat s.lowThr s.highThr
    rw [siteSequence, orderEdge, length_maskSites hmask.ge, ← hmask, List.take_length]
  · exact (hC.1 s.seed s.elemCount hs).length_eq.trans List.length_range

theorem State.elemCount_congr {s s' : State} (hh : s'.height = s.height) (hw : s'.width = s.width) :
    s'.elemCount = s.elemCount := by
  rw [State.elemCount, State.elemCount, hh, hw]

/-- Settles O28: each variant reads the shape and its own operands. -/
theorem orderIsDeterministic : Obligations.OrderIsDeterministic := by
  intro C s s' hh hw
  have hm := State.elemCount_congr hh hw
  refine ⟨?_, fun hlow hhigh himg => ?_, fun hseed => ?_⟩
  · simp only [siteSequence, hm]
  · simp only [siteSequence, orderEdge, hm, hh, hw, hlow, hhigh, Memory.readRange_congr himg]
  · simp only [siteSequence, orderPerm, hm, hseed]

/-- The edge variant lists exactly the samples of the pixels whose mask bit is set (rule R104). -/
theorem mem_siteSequence_edge {C : Collab} {s : State} {e : Nat} :
    e ∈ siteSequence C .edge s ↔ e < s.elemCount ∧
      (C.edgeDetect (s.img.readRange s.elemCount) s.height.toNat s.width.toNat s.lowThr s.highThr).getD (e / 3) false
        = true :=
  mem_maskSites.trans (and_congr_left fun _ => Nat.div_lt_iff_lt_mul (by decide))

/-! ### The command -/

theorem State.imageLegal_iff {s : State} : s.imageLegal = true ↔ s.height.toNat * s.width.toNat * 3 ≤ 536870911 :=
  decide_eq_true_iff

theorem kindOf_eq_none_iff {v : Word} : kindOf v = none ↔ 2 < v.toNat := by
  rcases kindOf_cases v with ⟨rfl, hk⟩ | ⟨rfl, hk⟩ | ⟨rfl, hk⟩ | ⟨hv, hk⟩
  · simp [hk]
  · simp [hk]
  · simp [hk]
  · exact iff_of_true hk hv

/-- The site table of a legal image, read as numbers, is the site sequence. -/
theorem toNat_loadSites_st {C : Collab} (hC : C.Lawful) {s : State} (image : s.imageLegal = true) (k : Kind) :
    (s.loadSites C k).st.map BitVec.toNat = siteSequence C k s := by
  rw [State.loadSites_st, siteTable_toNat hC (State.elemCount_le image)]

/-- Settles O25: a legal `KIND` and image load the site table with the sequence of the variant; any other operands end
the command before anything is written. -/
theorem orderFillsTheSiteTable : Obligations.OrderFillsTheSiteTable := by
  rintro s m rfl
  rcases orderWith_cases Config.collab s with ⟨k, hk, image, h⟩ | ⟨hbad, h⟩
  · have hsites := toNat_loadSites_st collab_lawful image k
    refine ⟨fun _ _ => ⟨_, h, rfl, fun hv => ?_, fun hv => ?_, fun hv => ?_⟩, ?_⟩
    · obtain rfl : Kind.seq = k := by simpa [kindOf, hv] using hk
      exact hsites
    · obtain rfl : Kind.edge = k := by simpa [kindOf, hv] using hk
      rw [State.record_st, hsites]
      exact ⟨maskSites_rising _ _, fun _ => mem_siteSequence_edge⟩
    · obtain rfl : Kind.perm = k := by simpa [kindOf, hv] using hk
      rw [State.record_st, hsites]
      exact ⟨rfl, perm_isPerm _ _⟩
    · rintro (hkind | hm)
      · rw [kindOf_eq_none_iff.2 hkind] at hk
        cases hk
      · exact absurd (State.imageLegal_iff.1 image) (not_le.2 hm)
  · refine ⟨fun hm hkind => ?_, fun _ => h⟩
    rcases hbad with hnone | hillegal
    · exact absurd (kindOf_eq_none_iff.1 hnone) (not_lt.2 hkind)
    · rw [State.imageLegal_iff.2 hm] at hillegal
      cases hillegal

end Sys2Proof.Machine
end

section
/-!
The capacity family (`42_capacity.md`): the selector's operand check in the words of the statements' effective width,
when `VALIDATE` answers `Ok` and when `InsufficientCapacity`, and the monotonicity of that answer.
-/

namespace Sys2Proof.Machine

open Sys2Proof.Claims

/-! ### The effective width -/

/-- The widths that pass the selector's operand check are the effective widths of rule R120. -/
theorem exists_selector_iff {s : State} {n : Nat} : (∃ k, s.selector = some (k, n)) ↔ EffectiveWidth s n := by
  constructor
  · rintro ⟨k, h⟩
    obtain ⟨hk, hpos, hn, hone, hperm⟩ := selector_some h
    rcases kindOf_cases s.kind with ⟨hv, hseq⟩ | ⟨hv, hedge⟩ | ⟨hv, hk'⟩ | ⟨-, hnone⟩
    · obtain rfl : k = .seq := by simpa [hk] using hseq
      exact .inl ⟨.inl hv, hone (by decide)⟩
    · obtain rfl : k = .edge := by simpa [hk] using hedge
      exact .inl ⟨.inr hv, hone (by decide)⟩
    · obtain rfl : k = .perm := by simpa [hk] using hk'
      obtain rfl : n = s.nbits.toNat := hperm rfl
      exact .inr ⟨hv, hpos, hn, rfl⟩
    · simp [hk] at hnone
  · rintro (⟨hv | hv, rfl⟩ | ⟨hv, hpos, hn, rfl⟩)
    · exact ⟨.seq, by simp [State.selector, kindOf, hv]⟩
    · exact ⟨.edge, by simp [State.selector, kindOf, hv]⟩
    · exact ⟨.perm, by simp [State.selector, kindOf, hv, widthLegal_iff.2 ⟨hpos, hn⟩]⟩

theorem effectiveWidth_unique {s : State} {m n : Nat} (hm : EffectiveWidth s m) (hn : EffectiveWidth s n) : m = n := by
  obtain ⟨k, hk⟩ := exists_selector_iff.2 hm
  obtain ⟨l, hl⟩ := exists_selector_iff.2 hn
  exact congrArg Prod.snd (Option.some.inj (hk.symm.trans hl))

theorem effectiveWidth_le {s : State} {n : Nat} (h : EffectiveWidth s n) : n ≤ 8 := by
  obtain ⟨_, hk⟩ := exists_selector_iff.2 h
  obtain ⟨-, -, hn, -⟩ := selector_some hk
  exact hn

/-- The effective width reads `KIND` and `NBITS` alone. -/
theorem effectiveWidth_congr {s s' : State} (hkind : s'.kind = s.kind) (hnbits : s'.nbits = s.nbits) (n : Nat) :
    EffectiveWidth s' n ↔ EffectiveWidth s n := by
  rw [EffectiveWidth, EffectiveWidth, hkind, hnbits]

theorem effectiveWidth_perm_iff {s : State} (hkind : s.kind = 2#32) {n : Nat} :
    EffectiveWidth s n ↔ 1 ≤ s.nbits.toNat ∧ s.nbits.toNat ≤ 8 ∧ n = s.nbits.toNat := by
  simp [EffectiveWidth, hkind]

theorem selector_eq_none_iff {s : State} : s.selector = none ↔ ∀ n, ¬ EffectiveWidth s n := by
  simp only [← exists_selector_iff, Option.eq_none_iff_forall_ne_some, Prod.forall, not_exists]
  exact forall_comm

/-! ### The command -/

theorem validateCapacity_eq_ok_iff {capacity required : Nat} :
    validateCapacity capacity required = .ok ↔ required ≤ capacity := by
  unfold validateCapacity
  split <;> simp_all

theorem validateCapacity_eq_insufficientCapacity_iff {capacity required : Nat} :
    validateCapacity capacity required = .insufficientCapacity ↔ capacity < required := by
  unfold validateCapacity
  split <;> simp_all

/-- How `VALIDATE` ends, in the words of rule R122: `CAP` and the answer of the check at the effective width, or
`BadOperand` where there is none. -/
theorem exec_validate_cases (s : State) :
    (∃ n, EffectiveWidth s n ∧
      exec .validate s = .next ((s.setCap (s.st.length * n)).record 0x09#8
        (validateCapacity (s.st.length * n) s.bs.length))) ∨
    ((∀ n, ¬ EffectiveWidth s n) ∧ exec .validate s = .next (s.record 0x09#8 .badOperand)) := by
  rcases execValidate_cases s with ⟨k, n, selected, h⟩ | ⟨hnone, h⟩
  · exact .inl ⟨n, exists_selector_iff.1 ⟨k, selected⟩, h⟩
  · exact .inr ⟨selector_eq_none_iff.1 hnone, h⟩

/-- Settles O32: at a width of at most 8 the capacity of a site table in range fits `CAP`. -/
theorem validateComparesLengthWithCapacity : Obligations.ValidateComparesLengthWithCapacity := by
  intro s hs
  rcases exec_validate_cases s with ⟨m, hm, h⟩ | ⟨hnone, h⟩
  · refine ⟨fun n hn => ?_, fun hnone => absurd hm (hnone m)⟩
    obtain rfl := effectiveWidth_unique hm hn
    refine ⟨_, h, ?_, ?_⟩
    · have hcode : validateCapacity (s.st.length * m) s.bs.length =
          if s.bs.length > s.st.length * m then .insufficientCapacity else .ok := by
        split
        · exact validateCapacity_eq_insufficientCapacity_iff.2 ‹_›
        · exact validateCapacity_eq_ok_iff.2 (not_lt.1 ‹_›)
      rw [hcode]
      rfl
    · have hcap : s.st.length * m ≤ 536870911 * 8 := Nat.mul_le_mul hs (effectiveWidth_le hm)
      rw [State.record_cap, State.setCap_cap, BitVec.toNat_ofNat, Config.two_pow_xlen]
      omega
  · exact ⟨fun n hn => absurd hn (hnone n), fun _ => h⟩

/-- Apart from `BadOperand`, the code that `VALIDATE` records is the answer of the check at the effective width. -/
theorem validate_err_iff {s t : State} (h : exec .validate s = .next t) {c : ResultCode} (hc : c ≠ .badOperand) :
    t.err = c.code ↔ ∃ n, EffectiveWidth s n ∧ validateCapacity (s.st.length * n) s.bs.length = c := by
  rcases exec_validate_cases s with ⟨m, hm, hs⟩ | ⟨hnone, hs⟩
  · cases hs.symm.trans h
    rw [State.record_err_eq_code_iff]
    exact ⟨fun hcode => ⟨m, hm, hcode⟩, fun ⟨n, hn, hcode⟩ => effectiveWidth_unique hn hm ▸ hcode⟩
  · cases hs.symm.trans h
    rw [State.record_err_eq_code_iff]
    exact iff_of_false hc.symm fun ⟨n, hn, _⟩ => hnone n hn

theorem validate_err_ok_iff {s t : State} (h : exec .validate s = .next t) :
    t.err = ResultCode.ok.code ↔ ∃ n, EffectiveWidth s n ∧ s.bs.length ≤ s.st.length * n := by
  simp only [validate_err_iff h (c := .ok) (by decide), validateCapacity_eq_ok_iff]

theorem validate_err_insufficientCapacity_iff {s t : State} (h : exec .validate s = .next t) :
    t.err = ResultCode.insufficientCapacity.code ↔ ∃ n, EffectiveWidth s n ∧ s.st.length * n < s.bs.length := by
  simp only [validate_err_iff h (c := .insufficientCapacity) (by decide), validateCapacity_eq_insufficientCapacity_iff]

/-- Settles O33: at equal sites and width only the length counts; and for `PERM` the width is `NBITS`, with which the
capacity grows. -/
theorem capacityIsMonotone : Obligations.CapacityIsMonotone := by
  constructor
  · intro s s' t t' hkind hnbits hst hle h h'
    have hwidth := effectiveWidth_congr hkind hnbits
    rw [validate_err_ok_iff h, validate_err_ok_iff h', validate_err_insufficientCapacity_iff h,
      validate_err_insufficientCapacity_iff h', hst]
    exact ⟨fun ⟨n, hn, hfit⟩ => ⟨n, (hwidth n).2 hn, hle.trans hfit⟩,
      fun ⟨n, hn, hlong⟩ => ⟨n, (hwidth n).1 hn, hlong.trans_le hle⟩⟩
  · intro s s' t t' hkind hkind' hst hbs hnbits hlegal h h'
    rw [validate_err_ok_iff h, validate_err_ok_iff h', hst, hbs]
    rintro ⟨n, hn, hfit⟩
    obtain ⟨hpos, -, rfl⟩ := (effectiveWidth_perm_iff hkind).1 hn
    have hwidth : EffectiveWidth s' s'.nbits.toNat :=
      (effectiveWidth_perm_iff hkind').2 ⟨hpos.trans hnbits, hlegal, rfl⟩
    exact ⟨_, hwidth, hfit.trans (Nat.mul_le_mul_left _ hnbits)⟩

end Sys2Proof.Machine
end

section
/-!
The codec family (`43_codec.md`): the sample update and read, what `EMBED` and `EXTRACT` leave in every case they can
end in, the round trip, and both commands as chains of the primitive commands.
-/

namespace Sys2Proof.Machine

open Sys2Proof.Claims

/-! ### The sample update and the sample read -/

/-- A symbol of `n` bits takes the place of the low `n` bits of the sample (rule R132). -/
theorem getLsbD_sampleUpdate_of_lt {n : Nat} (hn : n ≤ 8) (v : Byte) {y : Byte} (hy : y.toNat < 2 ^ n) {i : Nat}
    (hi : i < 8) : (sampleUpdate n v y).getLsbD i = if i < n then y.getLsbD i else v.getLsbD i := by
  rw [getLsbD_sampleUpdate hn v y i hi]
  by_cases h : i < n
  · simp [h]
  · simp [h, getLsbD_of_lt hy (not_lt.1 h)]

theorem toNat_lowmask {n : Nat} (hn : n ≤ 8) : (lowmask n).toNat = 2 ^ n - 1 := by
  have h : 2 ^ n ≤ 2 ^ 8 := Nat.pow_le_pow_right (by decide) hn
  rw [lowmask, BitVec.toNat_ofNat, Config.two_pow_sampleW]
  exact Nat.mod_eq_of_lt (by omega)

theorem toNat_sampleRead {n : Nat} (hn : n ≤ 8) (v : Byte) : (sampleRead n v).toNat = v.toNat % 2 ^ n := by
  rw [sampleRead, BitVec.toNat_and, toNat_lowmask hn, Nat.and_two_pow_sub_one_eq_mod]

/-- Settles O35: bit by bit; at width 1 the low mask is 0x01 and its complement 0xFE. -/
theorem sampleUpdateAndReadBitByBit : Obligations.SampleUpdateAndReadBitByBit := by
  refine ⟨fun n v y _ hn hy => ⟨fun i hi => getLsbD_sampleUpdate_of_lt hn v hy hi, sampleRead_sampleUpdate hn v y hy⟩,
    fun n v _ hn => toNat_sampleRead hn v, fun v y _ => ⟨?_, rfl⟩⟩
  have hmask : ~~~(lowmask 1) = 0xFE#8 := by decide
  rw [sampleUpdate, hmask]

/-! ### The image writes and the symbol reads -/

/-- `EMBED` step 5 on a site table with no address twice: the sample at a used site is updated with its symbol. -/
theorem read_embedWrite_site {s : State} (hd : s.st.Nodup) {n j : Nat} (hj : j < (chunkBits s.bs n).length)
    (hlen : (chunkBits s.bs n).length ≤ s.st.length) :
    (s.embedWrite n).img.read (s.st.getD j 0#32).toNat =
      sampleUpdate n (s.img.read (s.st.getD j 0#32).toNat) ((chunkBits s.bs n).getD j 0#8) := by
  have hj' : j < (s.st.zip (chunkBits s.bs n)).length := by rw [List.length_zip]; omega
  have hfst : (s.st.zip (chunkBits s.bs n)).map Prod.fst = s.st.take (chunkBits s.bs n).length := by
    rw [List.zip_eq_zip_take_min, List.map_fst_zip (by simp), Nat.min_eq_right hlen]
  have h := read_writeSymbols_site n s.img (s.st.zip (chunkBits s.bs n)) (hfst ▸ hd.sublist (List.take_sublist _ _))
    (List.getElem_mem hj')
  rw [List.getElem_zip] at h
  rw [List.getD_eq_getElem _ _ hj, List.getD_eq_getElem _ _ (hj.trans_le hlen)]
  exact h

/-- `EMBED` step 5 leaves every address that is no used site as it was. -/
theorem read_embedWrite_other {s : State} {n a : Nat}
    (h : ∀ j < (chunkBits s.bs n).length, (s.st.getD j 0#32).toNat ≠ a) :
    (s.embedWrite n).img.read a = s.img.read a := by
  rw [State.embedWrite_img]
  refine read_writeSymbols_other n s.img _ a fun p hp => ?_
  obtain ⟨j, hj, rfl⟩ := List.getElem_of_mem hp
  rw [List.length_zip] at hj
  have hne := h j (hj.trans_le (min_le_right _ _))
  rwa [List.getElem_zip, ← List.getD_eq_getElem _ 0#32]

/-- The same writes on two images that read alike below a bound leave images that read alike there. -/
theorem read_writeSymbols_congr {m m' : Memory} {bound : Nat} (h : ∀ a < bound, m'.read a = m.read a) (n : Nat)
    (pairs : List (Word × Byte)) {a : Nat} (ha : a < bound) :
    (writeSymbols n m' pairs).read a = (writeSymbols n m pairs).read a := by
  induction pairs generalizing m m' with
  | nil => exact h a ha
  | cons p rest ih =>
    obtain ⟨e, y⟩ := p
    refine ih fun b hb => ?_
    rw [Memory.read_write, Memory.read_write]
    by_cases he : b = e.toNat
    · rw [if_pos he, if_pos he, h _ (he ▸ hb)]
    · rw [if_neg he, if_neg he, h b hb]

theorem length_readSymbols (s : State) (n count : Nat) :
    (s.readSymbols n count).length = min count s.st.length := by
  rw [State.readSymbols, List.length_map, List.length_take]

/-- Symbol `j` is read from site `j` (rule R136 step 2). -/
theorem getD_readSymbols {s : State} {n count j : Nat} (hj : j < count) (hlen : count ≤ s.st.length) :
    (s.readSymbols n count).getD j 0#8 = sampleRead n (s.img.read (s.st.getD j 0#32).toNat) := by
  rw [List.getD_eq_getElem _ _ (by rw [length_readSymbols]; omega), List.getD_eq_getElem _ _ (by omega)]
  simp [State.readSymbols]

/-- The symbols read depend on the sites used and the samples there. -/
theorem readSymbols_congr {s s' : State} {count : Nat} (hst : s'.st.take count = s.st.take count)
    (himg : ∀ e ∈ s.st, s'.img.read e.toNat = s.img.read e.toNat) (n : Nat) :
    s'.readSymbols n count = s.readSymbols n count := by
  rw [State.readSymbols, State.readSymbols, hst]
  exact List.map_congr_left fun e he => by rw [himg e (List.mem_of_mem_take he)]

/-- Reading as many symbols as were written gives them back. -/
theorem readSymbols_embedWrite {s : State} (hd : s.st.Nodup) {n : Nat} (hn : n ≤ 8)
    (hlen : (chunkBits s.bs n).length ≤ s.st.length) :
    (s.embedWrite n).readSymbols n (chunkBits s.bs n).length = chunkBits s.bs n := by
  refine List.ext_getElem ?_ fun j hj hj' => ?_
  · rw [length_readSymbols, State.embedWrite_st, Nat.min_eq_left hlen]
  · rw [← List.getD_eq_getElem _ 0#8 hj, getD_readSymbols hj' (by simpa using hlen), State.embedWrite_st,
      read_embedWrite_site hd hj' hlen, List.getD_eq_getElem _ _ hj',
      sampleRead_sampleUpdate hn _ _ (lt_of_mem_chunkBits hn (List.getElem_mem hj'))]

/-! ### The ways `EMBED` and `EXTRACT` end -/

/-- The variant and the width that the selector's operand check lets through, in the words of the statements. -/
theorem selector_eq_some_iff {s : State} {k : Kind} {n : Nat} :
    s.selector = some (k, n) ↔ kindOf s.kind = some k ∧ EffectiveWidth s n := by
  constructor
  · intro h
    obtain ⟨hk, -⟩ := selector_some h
    exact ⟨hk, exists_selector_iff.1 ⟨k, h⟩⟩
  · rintro ⟨hk, hn⟩
    obtain ⟨l, h⟩ := exists_selector_iff.2 hn
    obtain ⟨hl, -⟩ := selector_some h
    obtain rfl : k = l := Option.some.inj (hk.symm.trans hl)
    exact h

theorem State.imageLegal_eq_false_iff {s : State} :
    s.imageLegal = false ↔ s.height.toNat * s.width.toNat * 3 > 536870911 := by
  rw [Bool.eq_false_iff, Ne, State.imageLegal_iff, not_le]

theorem State.payloadLegal_eq_false_iff {s : State} : s.payloadLegal = false ↔ s.plen.toNat > 536870911 := by
  rw [Bool.eq_false_iff, Ne, State.payloadLegal_iff, not_le]

/-- `EmbedEnds C s c u`: the codec sequence `EMBED`, run from `s`, has made `u` of it when it records code `c`
(rules R131, R133). -/
inductive EmbedEnds (C : Collab) (s : State) : ResultCode → State → Prop
  | ok {k : Kind} {n : Nat} (selected : s.selector = some (k, n)) (image : s.imageLegal = true)
      (payload : s.payloadLegal = true) (fits : 8 * s.plen.toNat ≤ (siteSequence C k s).length * n) :
      EmbedEnds C s .ok ((s.embedPrepare C k n).embedWrite n)
  | insufficientCapacity {k : Kind} {n : Nat} (selected : s.selector = some (k, n)) (image : s.imageLegal = true)
      (payload : s.payloadLegal = true) (short : (siteSequence C k s).length * n < 8 * s.plen.toNat) :
      EmbedEnds C s .insufficientCapacity (s.embedPrepare C k n)
  | badOperand (illegal : s.selector = none ∨ s.imageLegal = false ∨ s.payloadLegal = false) :
      EmbedEnds C s .badOperand s

/-- Each way of ending is taken where its conditions hold. -/
theorem EmbedEnds.embedWith_eq {C : Collab} {s u : State} {c : ResultCode} (ends : EmbedEnds C s c u) :
    embedWith C s = .next (u.record (encode .embed) c) := by
  have hcap (k : Kind) (n : Nat) : (s.embedPrepare C k n).capacityBits n = (siteSequence C k s).length * n := by
    simp [State.capacityBits]
  cases ends with
  | ok selected image payload fits =>
    simp [embedWith, selected, image, payload, hcap, validateCapacity_eq_ok_iff.2 fits, completeOk, conclude]
  | insufficientCapacity selected image payload short =>
    simp [embedWith, selected, image, payload, hcap, validateCapacity_eq_insufficientCapacity_iff.2 short,
      raise, conclude]
  | badOperand illegal =>
    rcases illegal with h | h | h
    · simp [embedWith, h, raise, conclude]
    · cases hs : s.selector <;> simp [embedWith, hs, h, raise, conclude]
    · cases hs : s.selector <;> simp [embedWith, hs, h, raise, conclude]

/-- One of the ways is taken (and by `embedWith_eq` only one). -/
theorem exists_embedEnds (C : Collab) (s : State) : ∃ c u, EmbedEnds C s c u := by
  rcases embedWith_cases C s with
    ⟨k, n, selected, image, payload, fits, -⟩ | ⟨k, n, selected, image, payload, short, -⟩ | ⟨illegal, -⟩
  · exact ⟨_, _, .ok selected image payload fits⟩
  · exact ⟨_, _, .insufficientCapacity selected image payload short⟩
  · exact ⟨_, _, .badOperand illegal⟩

theorem embedWith_ends {C : Collab} {s t : State} (h : embedWith C s = .next t) :
    ∃ c u, EmbedEnds C s c u ∧ t = u.record (encode .embed) c := by
  obtain ⟨c, u, ends⟩ := exists_embedEnds C s
  cases ends.embedWith_eq.symm.trans h
  exact ⟨c, u, ends, rfl⟩

/-- The code that an `EMBED` records tells which way it ended. -/
theorem embedWith_ends_of_err {C : Collab} {s t : State} (h : embedWith C s = .next t) {c : ResultCode}
    (herr : t.err = c.code) : ∃ u, EmbedEnds C s c u ∧ t = u.record (encode .embed) c := by
  obtain ⟨d, u, ends, rfl⟩ := embedWith_ends h
  obtain rfl := State.record_err_eq_code_iff.1 herr
  exact ⟨u, ends, rfl⟩

/-- `ExtractEnds C s c u`: the codec sequence `EXTRACT`, run from `s`, has made `u` of it when it records code `c`
(rules R136, R138). -/
inductive ExtractEnds (C : Collab) (s : State) : ResultCode → State → Prop
  | ok {k : Kind} {n : Nat} (selected : s.selector = some (k, n)) (image : s.imageLegal = true)
      (enough : ceilDiv s.totalBits.toNat n ≤ (siteSequence C k s).length) (whole : s.totalBits.toNat % 8 = 0) :
      ExtractEnds C s .ok ((s.loadSites C k).extractBits n (ceilDiv s.totalBits.toNat n)).storePayload
  | insufficientSites {k : Kind} {n : Nat} (selected : s.selector = some (k, n)) (image : s.imageLegal = true)
      (few : (siteSequence C k s).length < ceilDiv s.totalBits.toNat n) :
      ExtractEnds C s .insufficientSites (s.loadSites C k)
  | malformedBitstream {k : Kind} {n : Nat} (selected : s.selector = some (k, n)) (image : s.imageLegal = true)
      (enough : ceilDiv s.totalBits.toNat n ≤ (siteSequence C k s).length) (ragged : s.totalBits.toNat % 8 ≠ 0) :
      ExtractEnds C s .malformedBitstream ((s.loadSites C k).extractBits n (ceilDiv s.totalBits.toNat n))
  | badOperand (illegal : s.selector = none ∨ s.imageLegal = false) : ExtractEnds C s .badOperand s

/-- Each way of ending is taken where its conditions hold. -/
theorem ExtractEnds.extractWith_eq {C : Collab} {s u : State} {c : ResultCode} (ends : ExtractEnds C s c u) :
    extractWith C s = .next (u.record (encode .extract) c) := by
  cases ends with
  | ok selected image enough whole =>
    simp [extractWith, selected, image, not_lt.2 enough, whole, completeOk, conclude]
  | insufficientSites selected image few => simp [extractWith, selected, image, few, raise, conclude]
  | malformedBitstream selected image enough ragged =>
    simp [extractWith, selected, image, not_lt.2 enough, ragged, raise, conclude]
  | badOperand illegal =>
    rcases illegal with h | h
    · simp [extractWith, h, raise, conclude]
    · cases hs : s.selector <;> simp [extractWith, hs, h, raise, conclude]

/-- One of the ways is taken (and by `extractWith_eq` only one). -/
theorem exists_extractEnds (C : Collab) (s : State) : ∃ c u, ExtractEnds C s c u := by
  rcases extractWith_cases C s with
    ⟨k, n, selected, image, enough, whole, -⟩ | ⟨k, n, selected, image, few, -⟩ |
    ⟨k, n, selected, image, enough, ragged, -⟩ | ⟨illegal, -⟩
  · exact ⟨_, _, .ok selected image enough whole⟩
  · exact ⟨_, _, .insufficientSites selected image few⟩
  · exact ⟨_, _, .malformedBitstream selected image enough ragged⟩
  · exact ⟨_, _, .badOperand illegal⟩

/-- The code that an `EXTRACT` records tells which way it ended. -/
theorem extractWith_ends_of_err {C : Collab} {s t : State} (h : extractWith C s = .next t) {c : ResultCode}
    (herr : t.err = c.code) : ∃ u, ExtractEnds C s c u ∧ t = u.record (encode .extract) c := by
  obtain ⟨d, u, ends⟩ := exists_extractEnds C s
  cases ends.extractWith_eq.symm.trans h
  obtain rfl := State.record_err_eq_code_iff.1 herr
  exact ⟨u, ends, rfl⟩

/-! ### The command `EMBED` -/

section
variable {C : Collab} (hC : C.Lawful) {s : State} (image : s.imageLegal = true) (k : Kind)
include hC image

/-- The site table that `EMBED` prepares, read as numbers, is the site sequence of the cover image. -/
theorem toNat_embedPrepare_st (n : Nat) : (s.embedPrepare C k n).st.map BitVec.toNat = siteSequence C k s := by
  rw [State.embedPrepare_st, siteTable_toNat hC (State.elemCount_le image)]

theorem nodup_embedPrepare_st (n : Nat) : (s.embedPrepare C k n).st.Nodup := by
  rw [State.embedPrepare_st]
  exact siteTable_distinct hC (State.elemCount_le image) k

/-- At a width of at most 8 the capacity of a legal image fits `CAP` (rule R123). -/
theorem toNat_embedPrepare_cap {n : Nat} (hn : n ≤ 8) :
    (s.embedPrepare C k n).cap.toNat = (siteSequence C k s).length * n := by
  have hlen : (siteSequence C k s).length ≤ 536870911 :=
    (siteSequence_length_le hC (State.elemCount_le image) k).trans (State.elemCount_le image)
  have hcap : (siteSequence C k s).length * n ≤ 536870911 * 8 := Nat.mul_le_mul hlen hn
  rw [State.embedPrepare_cap, BitVec.toNat_ofNat, Config.two_pow_xlen]
  omega

end

theorem length_embedPrepare_bs (C : Collab) (s : State) (k : Kind) (n : Nat) :
    (s.embedPrepare C k n).bs.length = 8 * s.plen.toNat := by simp

theorem length_embedPrepare_st (C : Collab) (s : State) (k : Kind) (n : Nat) :
    (s.embedPrepare C k n).st.length = (siteSequence C k s).length := by simp

/-- A payload that fits has a site for every symbol. -/
theorem length_chunkBits_embedPrepare_le {C : Collab} {s : State} {k : Kind} {n : Nat} (hpos : 1 ≤ n)
    (fits : 8 * s.plen.toNat ≤ (siteSequence C k s).length * n) :
    (chunkBits (s.embedPrepare C k n).bs n).length ≤ (s.embedPrepare C k n).st.length := by
  rw [length_chunkBits, length_embedPrepare_bs, length_embedPrepare_st]
  exact ceilDiv_le hpos fits

/-- `TOTAL_BITS` after an `EMBED` of a legal payload is exact (rule R84). -/
theorem toNat_embedded_totalBits {C : Collab} {s : State} {k : Kind} {n : Nat} (payload : s.payloadLegal = true) :
    ((s.embedPrepare C k n).embedWrite n).totalBits.toNat = 8 * s.plen.toNat := by
  have hp := State.payloadLegal_iff.1 payload
  rw [State.embedWrite_totalBits, length_embedPrepare_bs, BitVec.toNat_ofNat, Config.two_pow_xlen]
  omega

/-- An item of the site table read as a number, the default being 0 in either reading. -/
theorem getD_map_toNat (st : List Word) (j : Nat) : (st.map BitVec.toNat).getD j 0 = (st.getD j 0#32).toNat :=
  List.getD_map st 0#32 BitVec.toNat

/-- Settles O34: the operands decide the way `EMBED` ends; with `Ok` every used site is updated once. -/
theorem embedWritesSymbolsIntoSites : Obligations.EmbedWritesSymbolsIntoSites := by
  rintro s m rfl
  constructor
  · rintro k n _ _ hk hn hm hp rfl rfl
    have selected := selector_eq_some_iff.2 ⟨hk, hn⟩
    have image := State.imageLegal_iff.2 hm
    have payload := State.payloadLegal_iff.2 hp
    obtain ⟨-, hpos, hn8, -⟩ := selector_some selected
    have hst := toNat_embedPrepare_st collab_lawful image k n
    have hcap := toNat_embedPrepare_cap collab_lawful image k hn8
    refine ⟨fun fits => ?_, fun short => ?_⟩
    · have hlen := length_chunkBits_embedPrepare_le hpos fits
      refine ⟨_, (EmbedEnds.ok selected image payload fits).embedWith_eq, ?_⟩
      simp only [State.record_st, State.record_cap, State.record_totalBits, State.record_sym, State.record_img,
        State.embedWrite_st, State.embedWrite_cap, State.embedWrite_sym, ← hst, getD_map_toNat]
      refine ⟨?_, trivial, ?_, toNat_embedded_totalBits payload, ?_, fun j hj => ?_, fun a ha => ?_⟩
      · rw [State.embedWrite_eq, State.embedPrepare_eq]
        rfl
      · rw [hcap, ← hst]
      · rwa [List.length_map]
      · rw [read_embedWrite_site (nodup_embedPrepare_st collab_lawful image k n) hj hlen, State.embedPrepare_img]
      · rw [read_embedWrite_other, State.embedPrepare_img]
        refine fun j hj he => ha ?_
        rw [← List.map_take, ← he, List.getD_eq_getElem _ _ (hj.trans_le hlen)]
        exact List.mem_map_of_mem (List.mem_take_iff_getElem.2 ⟨j, lt_min hj (hj.trans_le hlen), rfl⟩)
    · exact ⟨_, (EmbedEnds.insufficientCapacity selected image payload short).embedWith_eq, rfl, hst, hcap⟩
  · rw [← selector_eq_none_iff, ← State.imageLegal_eq_false_iff, ← State.payloadLegal_eq_false_iff]
    exact fun illegal => (EmbedEnds.badOperand illegal).embedWith_eq

/-- Settles O36: the sample update, bit by bit, at each used site. -/
theorem embedIsolatesLowBits : Obligations.EmbedIsolatesLowBits := by
  intro s t n hn h hok
  obtain ⟨_, ends, rfl⟩ := embedWith_ends_of_err h hok
  cases ends with
  | @ok k _ selected image payload fits =>
    obtain rfl := effectiveWidth_unique hn (exists_selector_iff.1 ⟨_, selected⟩)
    obtain ⟨-, hpos, hn8, -⟩ := selector_some selected
    have hlen := length_chunkBits_embedPrepare_le hpos fits
    simp only [State.record_sym, State.record_st, State.record_img, State.embedWrite_sym, State.embedWrite_st]
    refine ⟨fun j hj b hb => ?_, fun a ha => by rw [read_embedWrite_other ha, State.embedPrepare_img]⟩
    have hsym : ((chunkBits (s.embedPrepare Config.collab k n).bs n).getD j 0#8).toNat < 2 ^ n := by
      rw [List.getD_eq_getElem _ _ hj]
      exact lt_of_mem_chunkBits hn8 (List.getElem_mem hj)
    rw [read_embedWrite_site (nodup_embedPrepare_st collab_lawful image _ n) hj hlen,
      getLsbD_sampleUpdate_of_lt hn8 _ hsym hb, State.embedPrepare_img]

/-- An `EMBED` that fails keeps the image and `TOTAL_BITS`. -/
theorem embed_fails_keeps {C : Collab} {s t : State} (h : embedWith C s = .next t) (hfail : t.err ≠ ResultCode.ok.code) :
    t.img = s.img ∧ t.totalBits = s.totalBits := by
  obtain ⟨c, u, ends, rfl⟩ := embedWith_ends h
  cases ends with
  | ok => exact absurd (State.record_err _ _ _) hfail
  | insufficientCapacity => simp
  | badOperand => simp

/-- Settles O37. -/
theorem failedEmbedLeavesTheImage : Obligations.FailedEmbedLeavesTheImage := fun _ _ h hfail =>
  (embed_fails_keeps h hfail).1

/-- Settles O38: a failed `EMBED` stops before it writes anything, or after its preparation. -/
theorem failedEmbedLeavesScratch : Obligations.FailedEmbedLeavesScratch := by
  refine fun s t h => ⟨fun herr => ?_, fun herr => ?_⟩
  · obtain ⟨u, ends, rfl⟩ := embedWith_ends_of_err h herr
    cases ends
    rfl
  · obtain ⟨u, ends, rfl⟩ := embedWith_ends_of_err h herr
    cases ends with
    | @insufficientCapacity k n selected image payload short =>
      obtain ⟨hk, hn⟩ := selector_eq_some_iff.1 selected
      have hcap := toNat_embedPrepare_cap collab_lawful image k (effectiveWidth_le hn)
      refine ⟨rfl, rfl, ⟨k, hk, toNat_embedPrepare_st collab_lawful image k n⟩, ⟨n, hn, ?_⟩, ?_⟩
      · rw [State.record_cap, State.record_st, hcap, length_embedPrepare_st]
      · rwa [State.record_cap, State.record_bs, hcap, length_embedPrepare_bs]

/-- Settles O39. -/
theorem embedReturnsTotalBits : Obligations.EmbedReturnsTotalBits := by
  refine fun s t h => ⟨fun hok => ?_, fun hfail => (embed_fails_keeps h hfail).2⟩
  obtain ⟨u, ends, rfl⟩ := embedWith_ends_of_err h hok
  cases ends with
  | ok selected image payload fits => rw [State.record_totalBits, toNat_embedded_totalBits payload]

/-- Settles O44: the operands alone decide the way `EMBED` ends; then the same symbols go to the same sites, and the
other samples of the image are equal from the start. -/
theorem equalImagesInEqualImagesOut : Obligations.EqualImagesInEqualImagesOut := by
  intro s s' t t' ⟨hkind, hnbits, hheight, hwidth, htotal, hplen, hseed, hlow, hhigh⟩ hpay himg h h'
  have hselector : s'.selector = s.selector := State.selector_congr hkind fun _ => hnbits
  have himage : s'.imageLegal = s.imageLegal := State.imageLegal_congr hheight hwidth
  have hpayload : s'.payloadLegal = s.payloadLegal := State.payloadLegal_congr hplen
  have hsites (k : Kind) : siteSequence Config.collab k s' = siteSequence Config.collab k s :=
    siteSequence_congr _ k hheight hwidth hseed hlow hhigh himg
  have hbytes : s'.payload = s.payload := by
    rw [State.payload, State.payload, hplen]
    exact Memory.readRange_congr hpay
  obtain ⟨-, -, hheight', hwidth', -⟩ := commandsWriteOnlyWhatTheyOwn .embed s t h
  rw [SameImage, State.elemCount_congr hheight' hwidth']
  obtain ⟨c, u, ends, rfl⟩ := embedWith_ends h
  cases ends with
  | @ok k n selected image payload fits =>
    have ends' : EmbedEnds Config.collab s' .ok _ := .ok (hselector.trans selected) (himage.trans image)
      (hpayload.trans payload) (by rwa [hplen, hsites])
    cases ends'.embedWith_eq.symm.trans h'
    refine ⟨by simp, by simp [hplen], fun a ha => ?_⟩
    simp only [State.record_img, State.embedWrite_img, State.embedPrepare_img, State.embedPrepare_st,
      State.embedPrepare_bs, hbytes, hsites, read_writeSymbols_congr himg n _ ha]
  | @insufficientCapacity k n selected image payload short =>
    have ends' : EmbedEnds Config.collab s' .insufficientCapacity _ := .insufficientCapacity
      (hselector.trans selected) (himage.trans image) (hpayload.trans payload) (by rwa [hplen, hsites])
    cases ends'.embedWith_eq.symm.trans h'
    exact ⟨by simp, by simp [htotal], by simpa using fun a => himg a⟩
  | badOperand illegal =>
    have ends' : EmbedEnds Config.collab s' .badOperand s' := .badOperand (by rwa [hselector, himage, hpayload])
    cases ends'.embedWith_eq.symm.trans h'
    exact ⟨by simp, by simp [htotal], by simpa using fun a => himg a⟩

/-! ### The command `EXTRACT` -/

theorem length_loadSites_st (C : Collab) (s : State) (k : Kind) :
    (s.loadSites C k).st.length = (siteSequence C k s).length := by simp

/-- A symbol that `EXTRACT` reads is the sample at its site modulo 2^n (rules R136, R137). -/
theorem toNat_getD_readSymbols_loadSites {C : Collab} (hC : C.Lawful) {s : State} (image : s.imageLegal = true)
    {k : Kind} {n count j : Nat} (hn : n ≤ 8) (hj : j < count) (enough : count ≤ (siteSequence C k s).length) :
    (((s.loadSites C k).readSymbols n count).getD j 0#8).toNat =
      (s.img.read ((siteSequence C k s).getD j 0)).toNat % 2 ^ n := by
  rw [getD_readSymbols hj (enough.trans_eq (length_loadSites_st C s k).symm), toNat_sampleRead hn,
    ← toNat_loadSites_st hC image, getD_map_toNat, State.loadSites_img]

theorem length_readSymbols_loadSites {C : Collab} {s : State} {k : Kind} {n count : Nat}
    (enough : count ≤ (siteSequence C k s).length) : ((s.loadSites C k).readSymbols n count).length = count := by
  rw [length_readSymbols, length_loadSites_st, Nat.min_eq_left enough]

/-- Settles O40: the operands decide the way `EXTRACT` ends, in the order of the checks. -/
theorem extractReadsSymbolsFromSites : Obligations.ExtractReadsSymbolsFromSites := by
  rintro s m rfl
  constructor
  · rintro k n _ _ hk hn hm rfl rfl
    have selected := selector_eq_some_iff.2 ⟨hk, hn⟩
    have image := State.imageLegal_iff.2 hm
    have hst := toNat_loadSites_st collab_lawful image k
    refine ⟨fun enough whole => ?_, fun few => ?_, fun enough ragged => ?_⟩
    · refine ⟨_, (ExtractEnds.ok selected image enough whole).extractWith_eq, ?_, hst,
        length_readSymbols_loadSites enough,
        fun j hj => toNat_getD_readSymbols_loadSites collab_lawful image (effectiveWidth_le hn) hj enough, ?_,
        fun i b hi hb => ?_, fun a ha => ?_⟩
      · rw [State.storePayload_eq, State.extractBits_eq]
        rfl
      · have ht := Word.toNat_lt s.totalBits
        simp only [State.record_plen, State.storePayload_plen, State.extractBits_bs, length_unchunkBits,
          State.loadSites_totalBits, BitVec.toNat_ofNat, Config.two_pow_xlen]
        omega
      · rw [State.record_pay, read_storePayload, if_pos (by simpa using hi), groupValue_bit _ le_rfl i b hb, bitAt,
          Nat.mul_comm, State.record_bs, State.storePayload_bs]
      · rw [State.record_pay, read_storePayload, if_neg (by simpa using ha)]
        rfl
    · exact ⟨_, (ExtractEnds.insufficientSites selected image few).extractWith_eq, rfl, hst⟩
    · exact ⟨_, (ExtractEnds.malformedBitstream selected image enough ragged).extractWith_eq, rfl, hst,
        length_readSymbols_loadSites enough,
        fun j hj => toNat_getD_readSymbols_loadSites collab_lawful image (effectiveWidth_le hn) hj enough⟩
  · rw [← selector_eq_none_iff, ← State.imageLegal_eq_false_iff]
    exact fun illegal => (ExtractEnds.badOperand illegal).extractWith_eq

/-- Settles O41: the code tells which way `EXTRACT` ended; `IMG` and the registers are not its to write. -/
theorem failedExtractLeavesThePayload : Obligations.FailedExtractLeavesThePayload := by
  intro s t h
  obtain ⟨hkind, hnbits, hheight, hwidth, hseed, hlow, hhigh, -, -, hembed, -⟩ :=
    commandsWriteOnlyWhatTheyOwn .extract s t h
  obtain ⟨htotal, himg⟩ := hembed (by decide)
  refine ⟨fun herr => ?_, fun herr => ?_, fun herr => ?_, himg, hkind, hnbits, hheight, hwidth, htotal, rfl, hseed, hlow,
    hhigh⟩
  · obtain ⟨u, ends, rfl⟩ := extractWith_ends_of_err h herr
    cases ends
    rfl
  · obtain ⟨u, ends, rfl⟩ := extractWith_ends_of_err h herr
    cases ends with
    | @insufficientSites k n selected image few =>
      obtain ⟨hk, -⟩ := selector_eq_some_iff.1 selected
      exact ⟨rfl, k, hk, toNat_loadSites_st collab_lawful image k⟩
  · obtain ⟨u, ends, rfl⟩ := extractWith_ends_of_err h herr
    cases ends with
    | @malformedBitstream k n selected image enough ragged =>
      obtain ⟨hk, hn⟩ := selector_eq_some_iff.1 selected
      have hcount := length_readSymbols_loadSites (n := n) enough
      refine ⟨rfl, ⟨k, hk, toNat_loadSites_st collab_lawful image k⟩, ⟨n, hn, hcount, ?_, rfl⟩,
        length_unchunkBits _ _ _⟩
      rw [State.record_sym, State.extractBits_sym, hcount]
      rfl

/-! ### The round trip -/

/-- The site sequence of `SEQ` and `PERM` reads the selection alone (rule R111). -/
theorem siteSequence_eq_of_ne_edge (C : Collab) {s s' : State} {k : Kind} (hk : k ≠ .edge) (h : SameSelection s s') :
    siteSequence C k s' = siteSequence C k s := by
  obtain ⟨-, -, hheight, hwidth, hseed, -, -⟩ := h
  obtain ⟨hseq, -, hperm⟩ := orderIsDeterministic C s s' hheight hwidth
  cases k with
  | seq => exact hseq
  | edge => exact absurd rfl hk
  | perm => exact hperm hseed

/-- `EXTRACT` with legal operands, enough sites and a `TOTAL_BITS` of `8 × L` completes `Ok` with `PLEN = L`, and the
payload is what the symbols read spell. -/
theorem extractWith_ok {C : Collab} {s : State} {k : Kind} {n : Nat} {l : Word} (selected : s.selector = some (k, n))
    (image : s.imageLegal = true) (htotal : s.totalBits.toNat = 8 * l.toNat)
    (enough : ceilDiv (8 * l.toNat) n ≤ (siteSequence C k s).length) :
    ∃ u, extractWith C s = .next u ∧ u.err = ResultCode.ok.code ∧ u.plen = l ∧ ∀ i < l.toNat, u.pay.read i =
      groupValue (unchunkBits ((s.loadSites C k).readSymbols n (ceilDiv (8 * l.toNat) n)) n (8 * l.toNat)) 8 i := by
  have ends : ExtractEnds C s .ok _ := .ok selected image (htotal ▸ enough) (by omega)
  refine ⟨_, ends.extractWith_eq, State.record_err _ _ _, ?_, fun i hi => ?_⟩
  · simp [htotal]
  · rw [State.record_pay, read_storePayload]
    simp [htotal, hi]

/-- The round trip over any lawful pair of collaborators: the symbols read are those that were written, so the bits
spell the payload (rule R140). -/
theorem extractWith_undoes_embedWith {C : Collab} (hC : C.Lawful) {s t s' : State} {k : Kind} {n : Nat}
    (h : embedWith C s = .next t) (hok : t.err = ResultCode.ok.code) (selected : s.selector = some (k, n))
    (hsame : SameSelection s s') (htotal : s'.totalBits = t.totalBits) (himg : SameImage t s')
    (hsites : (siteSequence C k s').take (ceilDiv (8 * s.plen.toNat) n) =
      (siteSequence C k s).take (ceilDiv (8 * s.plen.toNat) n)) :
    ∃ u, extractWith C s' = .next u ∧ u.err = ResultCode.ok.code ∧ u.plen = s.plen ∧
      ∀ i, i < s.plen.toNat → u.pay.read i = s.pay.read i := by
  obtain ⟨hkind, hnbits, hheight, hwidth, -, -, -⟩ := hsame
  obtain ⟨-, hpos, hn, -⟩ := selector_some selected
  obtain ⟨_, ends, rfl⟩ := embedWith_ends_of_err h hok
  cases ends with
  | ok selected' image payload fits =>
    cases selected.symm.trans selected'
    have hlen := length_chunkBits_embedPrepare_le hpos fits
    have hcount : (chunkBits (s.embedPrepare C k n).bs n).length = ceilDiv (8 * s.plen.toNat) n := by
      rw [length_chunkBits, length_embedPrepare_bs]
    have enough : ceilDiv (8 * s.plen.toNat) n ≤ (siteSequence C k s').length := by
      have hcountle := ceilDiv_le hpos fits
      have htake := congrArg List.length hsites
      rw [List.length_take, List.length_take] at htake
      omega
    rw [State.record_totalBits] at htotal
    obtain ⟨u, hu, herr, hplen, hpay⟩ := extractWith_ok (l := s.plen)
      ((State.selector_congr hkind hnbits).trans selected) ((State.imageLegal_congr hheight hwidth).trans image)
      (htotal ▸ toNat_embedded_totalBits payload) enough
    have hsymbols : (s'.loadSites C k).readSymbols n (ceilDiv (8 * s.plen.toNat) n) =
        chunkBits (s.embedPrepare C k n).bs n := by
      rw [← readSymbols_embedWrite (nodup_embedPrepare_st hC image k n) hn hlen, hcount]
      refine readSymbols_congr ?_ (fun e he => ?_) n
      · rw [State.loadSites_st, State.embedWrite_st, State.embedPrepare_st, ← List.map_take, ← List.map_take, hsites]
      · rw [State.embedWrite_st, State.embedPrepare_st] at he
        have hlt := siteTable_lt hC (State.elemCount_le image) he
        rw [SameImage, State.elemCount_congr (s := s) (by simp) (by simp)] at himg
        rw [State.loadSites_img, himg _ hlt, State.record_img]
    refine ⟨u, hu, herr, hplen, fun i hi => ?_⟩
    have hbits := unchunkBits_chunkBits (s.embedPrepare C k n).bs hpos hn
    rw [length_embedPrepare_bs] at hbits
    have hi' : i < s.payload.length := by rwa [State.length_payload]
    rw [hpay i hi, hsymbols, hbits, State.embedPrepare_bs, groupValue_packBits hi', State.getElem_payload]

/-- Settles O42: the round trip over the machine's own collaborators. -/
theorem extractUndoesEmbed : Obligations.ExtractUndoesEmbed := by
  constructor
  · intro s t s' k n h hok hk hn
    exact extractWith_undoes_embedWith collab_lawful h hok (selector_eq_some_iff.2 ⟨hk, hn⟩)
  · exact fun s s' k _ hedge => siteSequence_eq_of_ne_edge _ hedge

/-- Settles O43: without `EDGE` the selection fixes the whole site sequence. -/
theorem roundTripForEveryCollaborator : Obligations.RoundTripForEveryCollaborator := by
  intro C s t s' hC hkind h hok hsame htotal himg
  obtain ⟨_, ends, -⟩ := embedWith_ends_of_err h hok
  cases ends with
  | @ok k n selected image payload fits =>
    have hedge : k ≠ .edge := by
      rintro rfl
      obtain ⟨hk, -⟩ := selector_some selected
      rcases kindOf_cases s.kind with ⟨-, hk'⟩ | ⟨hv, -⟩ | ⟨-, hk'⟩ | ⟨-, hk'⟩
      · simp [hk] at hk'
      · exact hkind hv
      · simp [hk] at hk'
      · simp [hk] at hk'
    exact extractWith_undoes_embedWith hC h hok selected hsame htotal himg
      (by rw [siteSequence_eq_of_ne_edge C hedge hsame])

/-- Settles O48: a permutation has all `M` sites whatever the seed, and the shape fixes `M`. -/
theorem wrongKeyStillCompletes : Obligations.WrongKeyStillCompletes := by
  intro s t s' hkind h hok hkind' hheight hwidth hnbits htotal
  obtain ⟨_, ends, rfl⟩ := embedWith_ends_of_err h hok
  cases ends with
  | @ok k n selected image payload fits =>
    have image' := (State.imageLegal_congr hheight hwidth).trans image
    have selected' := (State.selector_congr (hkind'.trans hkind.symm) fun _ => hnbits).trans selected
    obtain ⟨hk, hpos, -⟩ := selector_some selected
    obtain rfl : Kind.perm = k := by simpa [kindOf, hkind] using hk
    obtain ⟨-, -, hlen⟩ := slotsPerVariant Config.collab s collab_lawful (State.elemCount_le image)
    obtain ⟨-, -, hlen'⟩ := slotsPerVariant Config.collab s' collab_lawful (State.elemCount_le image')
    rw [State.record_totalBits] at htotal
    obtain ⟨u, hu, herr, hplen, -⟩ := extractWith_ok selected' image' (htotal ▸ toNat_embedded_totalBits payload)
      (by rw [hlen', hheight, hwidth, ← hlen]; exact ceilDiv_le hpos fits)
    exact ⟨u, hu, herr, hplen⟩

/-! ### The primitive commands -/

theorem exec_pack_of_legal {s : State} (legal : s.payloadLegal = true) :
    exec .pack s = .next (s.packPayload.record (encode .pack) .ok) := if_pos legal

theorem exec_chunk_of_legal {s : State} (legal : widthLegal s.nbits = true) :
    exec .chunk s = .next ((s.setSym (chunkBits s.bs s.nbits.toNat)).record (encode .chunk) .ok) := if_pos legal

theorem exec_unchunk_of_legal {s : State} (legal : unchunkLegal s) : exec .unchunk s =
    .next ((s.setBs (unchunkBits s.sym s.nbits.toNat s.totalBits.toNat)).record (encode .unchunk) .ok) :=
  ((execUnchunk_cases s).resolve_right fun ⟨illegal, _⟩ => illegal legal).2

theorem exec_unpack_of_whole {s : State} (whole : s.bs.length % 8 = 0) :
    exec .unpack s = .next (s.storePayload.record (encode .unpack) .ok) := if_neg (not_not.2 whole)

theorem exec_order_of_legal {s : State} {k : Kind} (hk : kindOf s.kind = some k) (image : s.imageLegal = true) :
    exec .order s = .next ((s.loadSites Config.collab k).record (encode .order) .ok) := by
  simp [exec, execOrder, orderWith, hk, image, completeOk, conclude]

theorem exec_validate_of_fits {s : State} {k : Kind} {n : Nat} (selected : s.selector = some (k, n))
    (fits : s.bs.length ≤ s.st.length * n) :
    exec .validate s = .next ((s.setCap (s.capacityBits n)).record (encode .validate) .ok) := by
  simp [exec, execValidate, selected, State.capacityBits, validateCapacity_eq_ok_iff.2 fits, conclude]

/-- A command runs alike after a recorded result (rule R21). -/
theorem exec_record (i : Instr) (s : State) (w : Byte) (c : ResultCode) : exec i (s.record w c) = exec i s :=
  noCommandReadsStatus i s _ _

/-- Where both width operands of a chain count, they agree: `n_eff` is `NBITS` for `PERM` and 1 otherwise. -/
theorem toNat_nbits_of_effectiveWidth {s : State} {n : Nat} (hn : EffectiveWidth s n)
    (h : s.kind = 2#32 ∨ s.nbits = 1#32) : s.nbits.toNat = n := by
  rcases hn with ⟨hkind, rfl⟩ | ⟨-, -, -, rfl⟩
  · rcases h with h | h
    · rcases hkind with hk | hk <;> simp [h] at hk
    · simp [h]
  · rfl

/-- Where `EMBED` has legal operands and the payload fits, `PACK; ORDER; VALIDATE` prepare what `EMBED` prepares. -/
theorem pack_order_validate_prepare {s : State} {k : Kind} {n : Nat} (selected : s.selector = some (k, n))
    (image : s.imageLegal = true) (payload : s.payloadLegal = true)
    (fits : 8 * s.plen.toNat ≤ (siteSequence Config.collab k s).length * n) :
    ∃ a b, exec .pack s = .next a ∧ a.err = ResultCode.ok.code ∧ exec .order a = .next b ∧
      b.err = ResultCode.ok.code ∧
      exec .validate b = .next ((s.embedPrepare Config.collab k n).record (encode .validate) .ok) := by
  obtain ⟨hk, -⟩ := selector_some selected
  have hlegal : s.packPayload.imageLegal = true := (State.imageLegal_congr (by simp) (by simp)).trans image
  have hselected : (s.packPayload.loadSites Config.collab k).selector = some (k, n) :=
    (State.selector_congr (by simp) (by simp)).trans selected
  refine ⟨_, _, exec_pack_of_legal payload, State.record_err _ _ _,
    (exec_record _ _ _ _).trans (exec_order_of_legal (by simpa using hk) hlegal), State.record_err _ _ _, ?_⟩
  rw [exec_record, exec_validate_of_fits hselected (by simpa using fits), State.embedPrepare]

/-- Where `NBITS` holds the width, the last steps of `EMBED` are a `CHUNK`, the image writes and `TOTAL_BITS`. -/
theorem exec_chunk_then_writes {p : State} {n : Nat} (hnbits : p.nbits.toNat = n) (hpos : 1 ≤ n) (hn : n ≤ 8) :
    ∃ d, exec .chunk p = .next d ∧ d.err = ResultCode.ok.code ∧ (p.embedWrite n).record 0x10#8 .ok =
      { d with img := writeSymbols n d.img (d.st.zip d.sym), totalBits := d.blen }.record 0x10#8 .ok := by
  subst hnbits
  exact ⟨_, exec_chunk_of_legal (widthLegal_iff.2 ⟨hpos, hn⟩), State.record_err _ _ _, rfl⟩

/-- Settles O46: the two chains share the prepared state; then `EMBED` chunks at `n_eff` and `CHUNK` at `NBITS`. -/
theorem embedIsThePrimitivesThenTheWrites : Obligations.EmbedIsThePrimitivesThenTheWrites := by
  intro s t n h hok hn
  obtain ⟨_, ends, rfl⟩ := embedWith_ends_of_err h hok
  cases ends with
  | ok selected image payload fits =>
    obtain rfl := effectiveWidth_unique hn (exists_selector_iff.1 ⟨_, selected⟩)
    obtain ⟨a, b, hpack, ha, horder, hb, hvalidate⟩ := pack_order_validate_prepare selected image payload fits
    obtain ⟨-, hpos, hn8, -⟩ := selector_some selected
    refine ⟨a, b, _, hpack, ha, horder, hb, hvalidate, State.record_err _ _ _, by simp, by simp, by simp,
      fun hwidth => ?_, fun hkind => ?_⟩
    · rw [exec_record]
      exact exec_chunk_then_writes (by simpa using toNat_nbits_of_effectiveWidth hn hwidth) hpos hn8
    · obtain ⟨-, rfl⟩ := hn.resolve_right fun ⟨hk, _⟩ => hkind hk
      have hone : widthLegal 1#32 = true := by decide
      exact ⟨_, exec_chunk_of_legal hone, by simp⟩

/-- Where `NBITS` holds the width, `UNCHUNK; UNPACK` on the symbols read do what `EXTRACT` does after the read: the
symbols fit the width and hold at least `TOTAL_BITS` bits, so `UNCHUNK` accepts them. -/
theorem exec_unchunk_unpack_after_read {u : State} {n count : Nat} (hnbits : u.nbits.toNat = n) (hpos : 1 ≤ n)
    (hn : n ≤ 8) (enough : count ≤ u.st.length) (hbits : u.totalBits.toNat ≤ count * n)
    (whole : u.totalBits.toNat % 8 = 0) :
    ∃ b, exec .unchunk (u.setSym (u.readSymbols n count)) = .next b ∧ b.err = ResultCode.ok.code ∧
      exec .unpack b = .next ((u.extractBits n count).storePayload.record (encode .unpack) .ok) := by
  subst hnbits
  have hlegal : unchunkLegal (u.setSym (u.readSymbols u.nbits.toNat count)) := by
    refine unchunkLegal_iff.2 ⟨⟨hpos, hn⟩, ?_, fun y hy => ?_⟩
    · simpa [length_readSymbols, Nat.min_eq_left enough] using hbits
    · obtain ⟨e, -, rfl⟩ := List.mem_map.1 hy
      exact sampleRead_lt hn _
  refine ⟨(u.extractBits u.nbits.toNat count).record (encode .unchunk) .ok, exec_unchunk_of_legal hlegal,
    State.record_err _ _ _, ?_⟩
  rw [exec_record, exec_unpack_of_whole (by simpa using whole)]

/-- Settles O47: the chain makes the same site table, symbols and bits as `EXTRACT`. -/
theorem extractIsThePrimitivesAroundTheReads : Obligations.ExtractIsThePrimitivesAroundTheReads := by
  intro s t n h hok hn hwidth
  obtain ⟨_, ends, rfl⟩ := extractWith_ends_of_err h hok
  cases ends with
  | @ok k _ selected image enough whole =>
    obtain rfl := effectiveWidth_unique hn (exists_selector_iff.1 ⟨_, selected⟩)
    obtain ⟨hk, hpos, hn8, -⟩ := selector_some selected
    obtain ⟨b, hunchunk, hb, hunpack⟩ := exec_unchunk_unpack_after_read (u := s.loadSites Config.collab k)
      (toNat_nbits_of_effectiveWidth hn hwidth) hpos hn8 (enough.trans_eq (length_loadSites_st _ _ _).symm)
      (le_ceilDiv_mul _ hpos) whole
    exact ⟨_, b, _, exec_order_of_legal hk image, State.record_err _ _ _, (exec_record _ _ _ _).trans hunchunk, hb,
      hunpack, State.record_err _ _ _, by simp, by simp, by simp, by simp⟩

/-- Settles O49. -/
theorem onlyEmbedWritesTheImage : Obligations.OnlyEmbedWritesTheImage := by
  intro i s t hi h
  obtain ⟨-, -, -, -, -, -, -, -, -, hembed, -⟩ := commandsWriteOnlyWhatTheyOwn i s t h
  exact (hembed hi).2

end Sys2Proof.Machine
end

section
/-!
The exception family (`60_exceptions.md`): for each command the table of rule R167 against the operand checks the model
makes, what a command does with and without a listed cause, and the idle block.
-/

namespace Sys2Proof.Machine

open Sys2Proof.Claims

/-! ### The causes of `BadOperand` are what the operand checks reject -/

theorem widthLegal_eq_false_iff {v : Word} : widthLegal v = false ↔ v = 0#32 ∨ v.toNat > 8 := by
  rw [Bool.eq_false_iff, Ne, widthLegal_iff, ← BitVec.toNat_inj, BitVec.toNat_zero]
  omega

/-- The selector's check rejects a `KIND` above 2, and for `PERM` an illegal `NBITS`. -/
theorem selector_eq_none_iff_illegal {s : State} : s.selector = none ↔
    s.kind.toNat > 2 ∨ (s.kind.toNat = 2 ∧ (s.nbits = 0#32 ∨ s.nbits.toNat > 8)) := by
  rcases kindOf_cases s.kind with ⟨hv, -⟩ | ⟨hv, -⟩ | ⟨hv, -⟩ | ⟨hv, hnone⟩
  · simp [State.selector, kindOf, hv]
  · simp [State.selector, kindOf, hv]
  · simp [State.selector, kindOf, hv, ← widthLegal_eq_false_iff]
  · simp [State.selector, hnone, hv]

theorem badOperandCause_pack_iff {s : State} : BadOperandCause s .pack ↔ s.payloadLegal = false :=
  State.payloadLegal_eq_false_iff.symm

theorem badOperandCause_chunk_iff {s : State} : BadOperandCause s .chunk ↔ widthLegal s.nbits = false :=
  widthLegal_eq_false_iff.symm

theorem badOperandCause_unchunk_iff {s : State} : BadOperandCause s .unchunk ↔ ¬ unchunkLegal s := by
  simp only [BadOperandCause, unchunkLegal, not_and_or, Bool.not_eq_true, widthLegal_eq_false_iff, not_le,
    symbolsFit_iff, not_forall, not_lt, exists_prop, ge_iff_le, or_assoc]

theorem badOperandCause_order_iff {s : State} :
    BadOperandCause s .order ↔ kindOf s.kind = none ∨ s.imageLegal = false := by
  rw [kindOf_eq_none_iff, State.imageLegal_eq_false_iff]
  rfl

theorem badOperandCause_validate_iff {s : State} : BadOperandCause s .validate ↔ s.selector = none :=
  selector_eq_none_iff_illegal.symm

theorem badOperandCause_embed_iff {s : State} :
    BadOperandCause s .embed ↔ s.selector = none ∨ s.imageLegal = false ∨ s.payloadLegal = false := by
  rw [selector_eq_none_iff_illegal, State.imageLegal_eq_false_iff, State.payloadLegal_eq_false_iff, or_assoc]
  rfl

theorem badOperandCause_extract_iff {s : State} :
    BadOperandCause s .extract ↔ s.selector = none ∨ s.imageLegal = false := by
  rw [selector_eq_none_iff_illegal, State.imageLegal_eq_false_iff, or_assoc]
  rfl

/-! ### What a command does with a cause, and what without -/

theorem validateCapacity_ne_badOperand (capacity required : Nat) :
    validateCapacity capacity required ≠ .badOperand := by
  unfold validateCapacity
  split <;> decide

/-- With a listed cause a command records `BadOperand` on the state it started from; without one it records another
code (rule R167). -/
theorem exec_badOperand_cases (i : Instr) (s : State) :
    (BadOperandCause s i ∧ exec i s = .next (s.record (encode i) .badOperand)) ∨
    (¬ BadOperandCause s i ∧ ∃ (c : ResultCode) (u : State), c ≠ .badOperand ∧
      exec i s = .next (u.record (encode i) c)) := by
  cases i with
  | pack =>
    rw [badOperandCause_pack_iff]
    rcases execPack_cases s with ⟨legal, h⟩ | ⟨illegal, h⟩
    · exact .inr ⟨by simp [legal], _, _, by decide, h⟩
    · exact .inl ⟨illegal, h⟩
  | chunk =>
    rw [badOperandCause_chunk_iff]
    rcases execChunk_cases s with ⟨legal, h⟩ | ⟨illegal, h⟩
    · exact .inr ⟨by simp [legal], _, _, by decide, h⟩
    · exact .inl ⟨illegal, h⟩
  | unchunk =>
    rw [badOperandCause_unchunk_iff]
    rcases execUnchunk_cases s with ⟨legal, h⟩ | ⟨illegal, h⟩
    · exact .inr ⟨not_not.2 legal, _, _, by decide, h⟩
    · exact .inl ⟨illegal, h⟩
  | unpack =>
    rcases execUnpack_cases s with ⟨-, h⟩ | ⟨-, h⟩
    · exact .inr ⟨id, _, _, by decide, h⟩
    · exact .inr ⟨id, _, _, by decide, h⟩
  | order =>
    rw [badOperandCause_order_iff]
    rcases orderWith_cases Config.collab s with ⟨k, selected, image, h⟩ | ⟨illegal, h⟩
    · exact .inr ⟨by simp [selected, image], _, _, by decide, h⟩
    · exact .inl ⟨illegal, h⟩
  | validate =>
    rw [badOperandCause_validate_iff]
    rcases execValidate_cases s with ⟨k, n, selected, h⟩ | ⟨illegal, h⟩
    · exact .inr ⟨by simp [selected], _, _, validateCapacity_ne_badOperand _ _, h⟩
    · exact .inl ⟨illegal, h⟩
  | embed =>
    rw [badOperandCause_embed_iff]
    obtain ⟨c, u, ends⟩ := exists_embedEnds Config.collab s
    have h := ends.embedWith_eq
    cases ends with
    | ok selected image payload => exact .inr ⟨by simp [selected, image, payload], _, _, by decide, h⟩
    | insufficientCapacity selected image payload =>
      exact .inr ⟨by simp [selected, image, payload], _, _, by decide, h⟩
    | badOperand illegal => exact .inl ⟨illegal, h⟩
  | extract =>
    rw [badOperandCause_extract_iff]
    obtain ⟨c, u, ends⟩ := exists_extractEnds Config.collab s
    have h := ends.extractWith_eq
    cases ends with
    | ok selected image => exact .inr ⟨by simp [selected, image], _, _, by decide, h⟩
    | insufficientSites selected image => exact .inr ⟨by simp [selected, image], _, _, by decide, h⟩
    | malformedBitstream selected image => exact .inr ⟨by simp [selected, image], _, _, by decide, h⟩
    | badOperand illegal => exact .inl ⟨illegal, h⟩

/-- Settles O50: the recorded code is the one `STATUS` then holds. -/
theorem badOperandExactlyForTheListedCauses : Obligations.BadOperandExactlyForTheListedCauses := by
  intro i s
  rcases exec_badOperand_cases i s with ⟨cause, h⟩ | ⟨noCause, c, u, hc, h⟩
  · exact ⟨fun _ => h, absurd cause⟩
  · exact ⟨fun cause => absurd cause noCause, fun _ => ⟨_, h, fun herr => hc (State.record_err_eq_code_iff.1 herr)⟩⟩

/-! ### The idle block -/

/-- Settles O6: a step that serves a transaction has one waiting. -/
theorem idleBlockHoldsItsState : Obligations.IdleBlockHoldsItsState := by
  intro s hin
  rcases step_cases s with ⟨-, hidle⟩ | ⟨t, rest, hcons, -⟩
  · exact hidle
  · simp [hin] at hcons

end Sys2Proof.Machine
end

section
/-!
The reset family (`70_reset_and_hazards.md`): what the registers, buffers and memories hold once the reset input is
served.
-/

namespace Sys2Proof.Machine

/-- The reset input keeps only what no register holds (rules R180, R182). -/
@[simp] theorem readReg_hostReset (s : State) (n : Reg) : s.hostReset.readReg n = State.reset.readReg n := by
  cases n <;> rfl

/-- The register port, the reserved numbers with it, answers as after reset (rule R180). -/
theorem readRegister_hostReset (s : State) (r : BitVec 5) :
    readRegister r s.hostReset = readRegister r State.reset := by
  simp [readRegister]

/-- Settles O11: the step serves the reset input, and `hostReset` takes everything but the memories, the waiting
transactions and the count of free values from the reset state. -/
theorem resetInputKeepsTheMemories : Obligations.ResetInputKeepsTheMemories := by
  intro s rest hin
  have hstep : step s = .next { s with inbox := rest }.hostReset := step_cons hin
  exact ⟨_, hstep, readRegister_hostReset _, rfl, rfl, rfl, rfl, rfl, rfl⟩

end Sys2Proof.Machine
end
